-- ==== Sys2Proof/Word.lean ====
section
/-! DEFINITION. The plainest data: register widths (R4), bytes, instruction words and the fields of an
instruction. Values are bit vectors of a stated width (R7). -/
namespace Sys2Proof

/-- `XLEN`, "the full length of the register": the three widths the spec admits (R4). -/
inductive Xlen
  | rv32
  | rv64
  | rv128
deriving DecidableEq, Repr

/-- `XLEN` in bits: the width of every integer register, of an address and of the pc (R4). -/
def Xlen.bits : Xlen → Nat
  | .rv32 => 32
  | .rv64 => 64
  | .rv128 => 128

/-- A byte of memory (R30). -/
abbrev Byte := BitVec 8

/-- An instruction word, `ILEN` = 32 bits (R70). -/
abbrev InstWord := BitVec 32

/-- A register number as the encoding holds it; all 32 values are legal (R73, R74, R81). -/
abbrev RegIdx := BitVec 5

/-- The 12-bit immediate of an instruction; all 4096 values are legal (R75 to R77, R81). -/
abbrev Imm12 := BitVec 12

end Sys2Proof
end

