-- ==== Sys2Proof/Config.lean ====
section
/-! DEFINITION. The parameters of the machine (R6), as plain data: what the platform must supply before
the first step (R173). The parameters with one value only (NREGS = 32, ILEN = 32, little-endian byte order,
MISALIGNED_TRAPS = false) are built into the definitions that use them; MEMORY_MODEL is unused (D14).
No free value is needed (notes/assumptions/18.md). -/
namespace Sys2Proof

/-- The two kinds of access `MEM_VALID` is asked about (R48); fetch does not consult it. -/
inductive AccessKind
  | read
  | write
deriving DecidableEq, Repr

/-- A range of byte addresses `base .. base + size - 1` and what may be done there. A list of regions can
say any `MEM_VALID` (R48, notes/assumptions/5.md). -/
structure Region where
  base : Nat
  size : Nat
  read : Bool
  write : Bool
deriving DecidableEq, Repr

/-- `PROGRAM` (R70): the address of its first word, and its words. -/
structure Program where
  base : Nat
  words : List InstWord
deriving DecidableEq, Repr

/-- The two fixed fields of an encoding: the major opcode and `funct3` (R72). -/
structure Code where
  opcode : BitVec 7
  funct3 : BitVec 3
deriving DecidableEq, Repr

/-- The replaceable codes of the three RV128-only instructions (R6: `ENC_LDU`, `ENC_LQ`, `ENC_SQ`). -/
structure Encodings where
  ldu : Code
  lq : Code
  sq : Code
deriving DecidableEq, Repr

/-- The major opcodes of R78, R79 and R80. -/
def majorLoad : BitVec 7 := 0b0000011#7
def majorStore : BitVec 7 := 0b0100011#7
def majorMiscMem : BitVec 7 := 0b0001111#7

/-- The default codes: LDU under LOAD with funct3 111 (R78), LQ under MISC-MEM with funct3 010 (R80),
SQ under STORE with funct3 100 (R79). -/
def Encodings.default : Encodings :=
  { ldu := ⟨majorLoad, 0b111#3⟩
    lq := ⟨majorMiscMem, 0b010#3⟩
    sq := ⟨majorStore, 0b100#3⟩ }

/-- What surrounds the hart and is read by its steps: `MEM_VALID`, `PROGRAM` and the encodings (R6). -/
structure Platform where
  memValid : List Region
  program : Program
  enc : Encodings
deriving DecidableEq, Repr

/-- All the parameters a run starts from (R6, R173): `XLEN`, the platform, `RESET_PC` (R171) and `MEM_INIT`
(R172), the latter as the list of the bytes that have a value. -/
structure Params where
  xlen : Xlen
  plat : Platform
  resetPc : BitVec xlen.bits
  memInit : List Host.Cell
deriving DecidableEq, Repr

/-- The values `State.reset` takes for the open parameters, each a DESIGN CHOICE of the model:
XLEN = 128, at which all fourteen instructions are available (notes/assumptions/1.md); every address
readable and writable (5.md); an empty PROGRAM at RESET_PC (6.md); RESET_PC = 0x1000 (3.md); no byte of memory with a value
(4.md). The encodings are the spec's defaults (D20). -/
def Params.default : Params :=
  { xlen := .rv128
    plat :=
      { memValid := [{ base := 0, size := 2 ^ 128, read := true, write := true }]
        program := { base := 0x1000, words := [] }
        enc := Encodings.default }
    resetPc := 0x1000#128
    memInit := [] }

end Sys2Proof
end

