-- ==== Sys2Proof/Syntax.lean ====
section
/-! DEFINITION. The instructions: one constructor for each row of spec/opcode_table.json, in the spec's
order (R1). Operands stand in the assembler's order (R88): the data register (`rd` of a load, `rs2` of a
store), the base register `rs1`, the 12-bit offset. -/
namespace Sys2Proof

/-- The fourteen instructions (R1). -/
inductive Instr
  /-- Load Byte (Signed), R101. -/
  | lb (rd rs1 : RegIdx) (imm : Imm12)
  /-- Load Byte (Unsigned), R102. -/
  | lbu (rd rs1 : RegIdx) (imm : Imm12)
  /-- Load Halfword (Signed), R103. -/
  | lh (rd rs1 : RegIdx) (imm : Imm12)
  /-- Load Halfword (Unsigned), R104. -/
  | lhu (rd rs1 : RegIdx) (imm : Imm12)
  /-- Load Word (Signed), R105. -/
  | lw (rd rs1 : RegIdx) (imm : Imm12)
  /-- Load Word (Unsigned), R106. -/
  | lwu (rd rs1 : RegIdx) (imm : Imm12)
  /-- Load Doubleword (Signed), R107. -/
  | ld (rd rs1 : RegIdx) (imm : Imm12)
  /-- Load Doubleword (Unsigned), R108. -/
  | ldu (rd rs1 : RegIdx) (imm : Imm12)
  /-- Load Quadword, R109. -/
  | lq (rd rs1 : RegIdx) (imm : Imm12)
  /-- Store Byte, R121. -/
  | sb (rs2 rs1 : RegIdx) (imm : Imm12)
  /-- Store Halfword, R122. -/
  | sh (rs2 rs1 : RegIdx) (imm : Imm12)
  /-- Store Word, R123. -/
  | sw (rs2 rs1 : RegIdx) (imm : Imm12)
  /-- Store Doubleword, R124. -/
  | sd (rs2 rs1 : RegIdx) (imm : Imm12)
  /-- Store Quadword, R125. -/
  | sq (rs2 rs1 : RegIdx) (imm : Imm12)
deriving DecidableEq, Repr

end Sys2Proof
end

