-- ==== Sys2Proof/WellFormed.lean ====
section
/-! DEFINITION. What is well formed: the availability of an instruction at a register width (R5), the
replaceable encodings (R6, R81), PROGRAM (R70, R171), initial memory, and the parameters as a whole.
Every check is a Bool. An instruction's fields need no check: every register number and every immediate is
legal (R81). -/
namespace Sys2Proof

/-- The availability table of R5, written out for the three widths. The meanings do not call it: they carry
the least width of their own rule, and a statement says that the two agree. -/
def Instr.availableAt (x : Xlen) : Instr → Bool
  | .lb _ _ _ | .lbu _ _ _ | .lh _ _ _ | .lhu _ _ _ | .lw _ _ _ => true
  | .sb _ _ _ | .sh _ _ _ | .sw _ _ _ => true
  | .lwu _ _ _ | .ld _ _ _ | .sd _ _ _ => x != .rv32
  | .ldu _ _ _ | .lq _ _ _ | .sq _ _ _ => x == .rv128

/-- The eleven codes the spec fixes (R78 without LDU, R79 without SQ). -/
def Code.isFixed (c : Code) : Bool :=
  (c.opcode == majorLoad && decide (c.funct3.toNat < 7)) ||
    (c.opcode == majorStore && decide (c.funct3.toNat < 4))

/-- A replaceable code may be used when it is none of the eleven fixed ones and, as every word of R70, it
ends in `11`. -/
def Code.isFree (c : Code) : Bool :=
  !c.isFixed && c.opcode.extractLsb' 0 2 == 0b11#2

/-- The three replaceable codes leave the rows of the opcode table distinct (R81). -/
def Encodings.wf (e : Encodings) : Bool :=
  e.ldu.isFree && e.lq.isFree && e.sq.isFree &&
    e.ldu != e.lq && e.ldu != e.sq && e.lq != e.sq

/-- `PROGRAM.base` is an address and a multiple of 4 (R70), and the program with its end-of-run address
does not wrap onto itself (notes/assumptions/8.md). -/
def Program.wf (x : Xlen) (p : Program) : Bool :=
  p.base % 4 == 0 && decide (p.base < 2 ^ x.bits) && decide (4 * p.words.length < 2 ^ x.bits)

/-- Addresses strictly rising: the canonical form of memory. -/
def cellsRising : List Host.Cell → Bool
  | [] => true
  | [_] => true
  | a :: b :: rest => decide (a.1 < b.1) && cellsRising (b :: rest)

/-- Every listed address exists in the address space (R40). -/
def cellsInSpace (x : Xlen) (m : List Host.Cell) : Bool :=
  m.all fun c => decide (c.1 < 2 ^ x.bits)

/-- The parameters a run may start from (R6, R171, R173). -/
def Params.wf (p : Params) : Bool :=
  p.plat.enc.wf && p.plat.program.wf p.xlen && p.resetPc.toNat % 4 == 0 &&
    cellsRising p.memInit && cellsInSpace p.xlen p.memInit

end Sys2Proof
end

