-- ==== Sys2Proof/Decode.lean ====
section
/-! DEFINITION. The opcode table (R78 to R80), decoding a word (R81), encoding an instruction (R89), and the
byte order of words in memory (R71). Decoding is total and rejects by name. -/
namespace Sys2Proof

/-- The names of the rows of the opcode table. -/
inductive Op
  | lb | lbu | lh | lhu | lw | lwu | ld | ldu | lq
  | sb | sh | sw | sd | sq
deriving DecidableEq, Repr

/-- The two instruction formats (R73, R74). -/
inductive Format
  | I
  | S
deriving DecidableEq, Repr

/-- A row of the opcode table: its instruction and its two fixed fields. -/
structure Row where
  op : Op
  code : Code
deriving DecidableEq, Repr

/-- Why a list of bytes or a word is not one of the fourteen instructions. -/
inductive DecodeReject
  /-- Fewer than the four bytes of an instruction (R70). -/
  | tooShort
  /-- The word matches no row of the table (R85). -/
  | noRow (inst : InstWord)
deriving DecidableEq, Repr

/-- "This is an I-type instruction" for the nine loads, "an S-type instruction" for the five stores. -/
def Op.format : Op → Format
  | .lb | .lbu | .lh | .lhu | .lw | .lwu | .ld | .ldu | .lq => .I
  | .sb | .sh | .sw | .sd | .sq => .S

/-- The opcode map: R78 (loads), R79 (stores), R80 (LQ), with the replaceable codes of R6. -/
def Op.code (e : Encodings) : Op → Code
  | .lb => ⟨majorLoad, 0b000#3⟩
  | .lbu => ⟨majorLoad, 0b100#3⟩
  | .lh => ⟨majorLoad, 0b001#3⟩
  | .lhu => ⟨majorLoad, 0b101#3⟩
  | .lw => ⟨majorLoad, 0b010#3⟩
  | .lwu => ⟨majorLoad, 0b110#3⟩
  | .ld => ⟨majorLoad, 0b011#3⟩
  | .ldu => e.ldu
  | .lq => e.lq
  | .sb => ⟨majorStore, 0b000#3⟩
  | .sh => ⟨majorStore, 0b001#3⟩
  | .sw => ⟨majorStore, 0b010#3⟩
  | .sd => ⟨majorStore, 0b011#3⟩
  | .sq => e.sq

/-- The rows in the table's order. -/
def opcodeTable (e : Encodings) : List Row :=
  ([.lb, .lbu, .lh, .lhu, .lw, .lwu, .ld, .ldu, .lq, .sb, .sh, .sw, .sd, .sq] : List Op).map
    fun op => ⟨op, op.code e⟩

/-- The mask of every row: bits 14:12 and 6:0 are fixed (R78 to R80). -/
def tableMask : InstWord := 0x0000707F#32

/-- A row's `match`: its `funct3` at bits 14:12 and its `opcode` at bits 6:0, zero elsewhere. -/
def Code.matchWord (c : Code) : InstWord :=
  0#17 ++ c.funct3 ++ 0#5 ++ c.opcode

/-- The fields of an instruction word (R72 to R76). -/
def fieldRd (inst : InstWord) : RegIdx := inst.extractLsb' 7 5
def fieldRs1 (inst : InstWord) : RegIdx := inst.extractLsb' 15 5
def fieldRs2 (inst : InstWord) : RegIdx := inst.extractLsb' 20 5
def fieldImmI (inst : InstWord) : Imm12 := inst.extractLsb' 20 12
def fieldImmS (inst : InstWord) : Imm12 := inst.extractLsb' 25 7 ++ inst.extractLsb' 7 5

/-- The instruction of a row with its operands: the data register, the base register, the immediate. -/
def Op.instr (op : Op) (data base : RegIdx) (imm : Imm12) : Instr :=
  match op with
  | .lb => .lb data base imm
  | .lbu => .lbu data base imm
  | .lh => .lh data base imm
  | .lhu => .lhu data base imm
  | .lw => .lw data base imm
  | .lwu => .lwu data base imm
  | .ld => .ld data base imm
  | .ldu => .ldu data base imm
  | .lq => .lq data base imm
  | .sb => .sb data base imm
  | .sh => .sh data base imm
  | .sw => .sw data base imm
  | .sd => .sd data base imm
  | .sq => .sq data base imm

/-- The row of the table whose `match` is `inst & mask` (R81). -/
def findRow (e : Encodings) (inst : InstWord) : Option Row :=
  (opcodeTable e).find? fun r => r.code.matchWord == inst &&& tableMask

/-- Decoding a word (R81). Availability at the machine's `XLEN` is checked when the instruction is performed
(R100, R120), so that a word reads the same at every width (R87). -/
def decode (e : Encodings) (inst : InstWord) : Except DecodeReject Instr :=
  match findRow e inst with
  | none => .error (.noRow inst)
  | some r =>
    match r.op.format with
    | .I => .ok (r.op.instr (fieldRd inst) (fieldRs1 inst) (fieldImmI inst))
    | .S => .ok (r.op.instr (fieldRs2 inst) (fieldRs1 inst) (fieldImmS inst))

/-- The first word of a program that matches no row (R85), if there is one. -/
def Program.unknownWord? (e : Encodings) (p : Program) : Option InstWord :=
  p.words.find? fun inst => (findRow e inst).isNone

/-- The row an instruction belongs to. -/
def Instr.op : Instr → Op
  | .lb _ _ _ => .lb
  | .lbu _ _ _ => .lbu
  | .lh _ _ _ => .lh
  | .lhu _ _ _ => .lhu
  | .lw _ _ _ => .lw
  | .lwu _ _ _ => .lwu
  | .ld _ _ _ => .ld
  | .ldu _ _ _ => .ldu
  | .lq _ _ _ => .lq
  | .sb _ _ _ => .sb
  | .sh _ _ _ => .sh
  | .sw _ _ _ => .sw
  | .sd _ _ _ => .sd
  | .sq _ _ _ => .sq

/-- The I-type word (R73): `imm_I[11:0] rs1 funct3 rd opcode`, most significant field first. -/
def encodeI (c : Code) (rd rs1 : RegIdx) (imm : Imm12) : InstWord :=
  imm ++ rs1 ++ c.funct3 ++ rd ++ c.opcode

/-- The S-type word (R74): `imm_S[11:5] rs2 rs1 funct3 imm_S[4:0] opcode`. -/
def encodeS (c : Code) (rs2 rs1 : RegIdx) (imm : Imm12) : InstWord :=
  imm.extractLsb' 5 7 ++ rs2 ++ rs1 ++ c.funct3 ++ imm.extractLsb' 0 5 ++ c.opcode

/-- The word of an instruction (R89). -/
def encode (e : Encodings) : Instr → InstWord
  | .lb rd rs1 imm => encodeI (Op.lb.code e) rd rs1 imm
  | .lbu rd rs1 imm => encodeI (Op.lbu.code e) rd rs1 imm
  | .lh rd rs1 imm => encodeI (Op.lh.code e) rd rs1 imm
  | .lhu rd rs1 imm => encodeI (Op.lhu.code e) rd rs1 imm
  | .lw rd rs1 imm => encodeI (Op.lw.code e) rd rs1 imm
  | .lwu rd rs1 imm => encodeI (Op.lwu.code e) rd rs1 imm
  | .ld rd rs1 imm => encodeI (Op.ld.code e) rd rs1 imm
  | .ldu rd rs1 imm => encodeI (Op.ldu.code e) rd rs1 imm
  | .lq rd rs1 imm => encodeI (Op.lq.code e) rd rs1 imm
  | .sb rs2 rs1 imm => encodeS (Op.sb.code e) rs2 rs1 imm
  | .sh rs2 rs1 imm => encodeS (Op.sh.code e) rs2 rs1 imm
  | .sw rs2 rs1 imm => encodeS (Op.sw.code e) rs2 rs1 imm
  | .sd rs2 rs1 imm => encodeS (Op.sd.code e) rs2 rs1 imm
  | .sq rs2 rs1 imm => encodeS (Op.sq.code e) rs2 rs1 imm

/-- The little-endian value of a list of bytes: the first byte is the least significant (R41). -/
def leNat : List Byte → Nat
  | [] => 0
  | b :: rest => b.toNat + 256 * leNat rest

/-- The bytes of a word in memory, lowest address first (R71). -/
def wordBytes (inst : InstWord) : List Byte :=
  [inst.extractLsb' 0 8, inst.extractLsb' 8 8, inst.extractLsb' 16 8, inst.extractLsb' 24 8]

/-- The first word of a byte image, and the bytes after it (R70, R71). -/
def takeWord : List Byte → Except DecodeReject (InstWord × List Byte)
  | b0 :: b1 :: b2 :: b3 :: rest => .ok (BitVec.ofNat 32 (leNat [b0, b1, b2, b3]), rest)
  | _ => .error .tooShort

/-- Decoding the first instruction of a list of bytes, with the bytes that follow it. -/
def decodeBytes (e : Encodings) (bs : List Byte) : Except DecodeReject (Instr × List Byte) :=
  match takeWord bs with
  | .error r => .error r
  | .ok (inst, rest) =>
    match decode e inst with
    | .error r => .error r
    | .ok i => .ok (i, rest)

/-- The bytes of a list of words, as a platform that wants code readable as data puts them into `MEM_INIT`
(R60, R71). -/
def imageBytes (ws : List InstWord) : List Byte :=
  ws.flatMap wordBytes

/-- The words of a byte image, as whoever loads `PROGRAM` from one reads them (R71): the inverse of
`imageBytes`; an image that ends inside a word is refused. -/
def imageWords : List Byte → Except DecodeReject (List InstWord)
  | [] => .ok []
  | b0 :: b1 :: b2 :: b3 :: rest =>
    match imageWords rest with
    | .ok ws => .ok (BitVec.ofNat 32 (leNat [b0, b1, b2, b3]) :: ws)
    | .error r => .error r
  | _ => .error .tooShort

/-- The word of a table row given as a number: the bits above `nbits` are 0. -/
def tableWord (nbits w : Nat) : InstWord :=
  BitVec.ofNat 32 (w % 2 ^ nbits)

/-- The instruction the decoder reads, with the default encodings, from the bytes of a word numbered as
spec/opcode_table.json numbers it. -/
def decodeTableWord (nbits w : Nat) : Option Instr :=
  match decodeBytes Encodings.default (wordBytes (tableWord nbits w)) with
  | .ok (i, _) => some i
  | .error _ => none

end Sys2Proof
end

