-- ==== Sys2Proof/Machine/State.lean ====
section
/-! DEFINITION. The state of the machine (R32): the registers, the pc, the memory, and beside them the
parameters the steps read (R6), which no step changes. All of it is plain data. The ways a step can stop
stand here too. -/
namespace Sys2Proof.Machine

/-- Memory `M` (R30) as the list of the bytes that have a value, by address, addresses strictly rising. An
unlisted address has no value (R172, notes/assumptions/4.md). -/
abbrev Memory := List Host.Cell

/-- The architectural state `(x[1..31], pc, M)` (R32), and the parameters of the machine. -/
structure State where
  /-- `XLEN` (R4). -/
  xlen : Xlen
  /-- `MEM_VALID`, `PROGRAM` and the replaceable encodings (R6). -/
  plat : Platform
  /-- The address of the current instruction (R25). -/
  pc : BitVec xlen.bits
  /-- `x1` .. `x31`, `x1` at index 0 (R21); `x0` has no storage (R22). -/
  regs : Vector (BitVec xlen.bits) 31
  /-- `M` (R30). -/
  mem : Memory
deriving DecidableEq, Repr

/-- The state after reset with given parameters (R170 to R172): `pc` is `RESET_PC`, memory is `MEM_INIT`.
`x1` .. `x31`, unspecified in the spec, are 0: a DESIGN CHOICE (notes/assumptions/2.md). -/
def State.resetOf (p : Params) : State :=
  { xlen := p.xlen
    plat := p.plat
    pc := p.resetPc
    regs := Vector.replicate 31 0
    mem := p.memInit }

/-- The machine right after reset, with the model's choice of the open parameters (`Params.default`). -/
def State.reset : State :=
  State.resetOf Params.default

/-- The four synchronous exceptions and the information each carries (R140). -/
inductive Exception
  /-- Fetch outside `PROGRAM` and not at the end of the run (R157). -/
  | instructionAccessFault (pc : Nat)
  /-- One of the fourteen, not available at this `XLEN` (R141). -/
  | illegalInstruction (inst : InstWord)
  /-- A load with a byte that is not valid for reading; carries the effective address (R142). -/
  | loadAccessFault (addr : Nat)
  /-- A store with a byte that is not valid for writing; carries the effective address (R143). -/
  | storeAccessFault (addr : Nat)
deriving DecidableEq, Repr

/-- The ways the machine stops with a fault. The state a fault leaves is the state before the step (R147,
notes/assumptions/9.md). -/
inductive Fault
  /-- A fatal trap (R146), with the exception and the pc of the instruction. Raised by fetch, by an
  instruction not available at this width, and by a load or store of an invalid byte. It is what the spec
  says; it is safe, since a fault is never a successful end of a run. -/
  | trap (e : Exception) (pc : Nat)
  /-- A load read a valid byte that has no value (R172, U3): with the effective address and the pc. Raised by
  every load. Safe: hardware would go on with some value. -/
  | unspecifiedByte (addr pc : Nat)
deriving DecidableEq, Repr

/-- The ways a step is refused: no step, and no architectural outcome. -/
inductive Refusal
  /-- The instruction has no meaning in this model yet. Raised by no arm of `exec`. Safe. -/
  | notModelled (mnemonic : String)
  /-- The word at the pc matches no row of the opcode table (R85). Raised by `step`. Safe. -/
  | unknownWord (inst : InstWord) (pc : Nat)
  /-- A word of PROGRAM, not the one at the pc, matches no row, so that the program is not given a meaning (R85), with
  the first such word and the pc. Raised by `step`. Safe. -/
  | unknownWordInProgram (inst : InstWord) (pc : Nat)
  /-- A store with a byte inside the address range of `PROGRAM` (R60), with the effective address and the
  pc. Raised by every store. Safe. -/
  | storeToProgram (addr pc : Nat)
deriving DecidableEq, Repr

/-- What a step of this machine answers. -/
abbrev Result := Host.Outcome State Fault Refusal

/-- What fetch finds at the pc (R70, R157, R177). -/
inductive Fetched
  /-- A word of `PROGRAM`. -/
  | word (inst : InstWord)
  /-- The end-of-run address: the hart has stopped. -/
  | ended
  /-- Neither. -/
  | outside
deriving DecidableEq, Repr

end Sys2Proof.Machine
end

