-- ==== Sys2Proof/Machine/Ops.lean ====
section
/-! DEFINITION. The named operations over registers, the pc, memory and PROGRAM; taking an exception; fetch. -/
namespace Sys2Proof.Machine

/-! ### Registers and the pc -/

/-- `x[i]` (R11, R21): 0 for `x0`, otherwise the register's contents. -/
def State.readReg (s : State) (r : RegIdx) : BitVec s.xlen.bits :=
  if r = 0 then 0 else s.regs[r.toNat - 1]'(by have := r.isLt; omega)

/-- `x[i] <- v` (R11, R22): all `XLEN` bits of the register; a write of `x0` is discarded. -/
def State.writeReg (s : State) (r : RegIdx) (v : BitVec s.xlen.bits) : State :=
  { s with
    regs := if r = 0 then s.regs else s.regs.set (r.toNat - 1) v (by have := r.isLt; omega) }

/-- `pc <- pc + 4`, modulo `2^XLEN` (R25, R10). -/
def State.advancePc (s : State) : State :=
  { s with pc := s.pc + 4 }

/-! ### Memory, byte by byte -/

/-- The value of the byte at an address, if it has one. -/
def Memory.get? : Memory → Nat → Option Byte
  | [], _ => none
  | (k, b) :: rest, a => if a = k then some b else Memory.get? rest a

/-- The memory with one byte replaced. Keeps the addresses rising. -/
def Memory.set : Memory → Nat → Byte → Memory
  | [], a, v => [(a, v)]
  | (k, b) :: rest, a, v =>
    if a < k then (a, v) :: (k, b) :: rest
    else if a = k then (a, v) :: rest
    else (k, b) :: Memory.set rest a v

/-- The canonical form of memory: addresses strictly rising. No entry equals what an unlisted address reads
as, since an unlisted address has no value. -/
def Memory.wf (m : Memory) : Bool :=
  cellsRising m

/-- The values of the bytes at a list of addresses, if each has one. -/
def Memory.getAll : Memory → List Nat → Option (List Byte)
  | _, [] => some []
  | m, a :: rest =>
    match m.get? a, Memory.getAll m rest with
    | some b, some bs => some (b :: bs)
    | _, _ => none

/-- The memory with a list of bytes replaced, in the list's order. -/
def Memory.setAll : Memory → List (Nat × Byte) → Memory
  | m, [] => m
  | m, (a, v) :: rest => Memory.setAll (m.set a v) rest

/-! ### Accesses -/

/-- The address of byte `i` of an access at `addr`: `(addr + i) mod 2^XLEN` (R49). -/
def byteAddr {w : Nat} (addr : BitVec w) (i : Nat) : Nat :=
  (addr.toNat + i) % 2 ^ w

/-- The addresses of an `n`-byte access, in the order of its bytes (R42, R49). -/
def accessAddrs {w : Nat} (addr : BitVec w) (n : Nat) : List Nat :=
  (List.range n).map (byteAddr addr)


/-- Whether a region lets the byte at `a` be accessed. -/
def regionAdmits (g : Region) (a : Nat) (k : AccessKind) : Bool :=
  decide (g.base ≤ a) && decide (a < g.base + g.size) &&
    match k with
    | .read => g.read
    | .write => g.write

/-- `MEM_VALID(a, kind)` (R48): some region of the platform admits the access. -/
def State.memValid (s : State) (a : Nat) (k : AccessKind) : Bool :=
  s.plat.memValid.any fun g => regionAdmits g a k

/-- An access is admitted when every one of its bytes is valid (R48). -/
def State.admits (s : State) (addr : BitVec s.xlen.bits) (n : Nat) (k : AccessKind) : Bool :=
  (accessAddrs addr n).all fun a => s.memValid a k

/-- The value of the `n` bytes of memory at `addr`, little-endian, if each has a value (R41, R46). -/
def State.bytesAt (s : State) (addr : BitVec s.xlen.bits) (n : Nat) : Option (BitVec (8 * n)) :=
  match s.mem.getAll (accessAddrs addr n) with
  | some bs => some (BitVec.ofNat (8 * n) (leNat bs))
  | none => none

/-- The addresses and bytes of an `n`-byte value stored at `addr`: byte `i` is bits `8i+7 : 8i` (R41, R47). -/
def storeBytes {w : Nat} (addr : BitVec w) (n : Nat) (v : BitVec (8 * n)) : List (Nat × Byte) :=
  (List.range n).map fun i => (byteAddr addr i, v.extractLsb' (8 * i) 8)

/-- The state with `n` bytes of memory replaced (the second half of R47). -/
def State.writeBytes (s : State) (addr : BitVec s.xlen.bits) (n : Nat) (v : BitVec (8 * n)) : State :=
  { s with mem := s.mem.setAll (storeBytes addr n v) }

/-! ### PROGRAM -/

/-- How far an address lies past `PROGRAM.base`, modulo `2^XLEN` (notes/assumptions/8.md). -/
def State.programOffset (s : State) (a : Nat) : Nat :=
  (BitVec.ofNat s.xlen.bits a - BitVec.ofNat s.xlen.bits s.plat.program.base).toNat

/-- Whether an address is inside the address range of `PROGRAM` (R60). -/
def State.inProgram (s : State) (a : Nat) : Bool :=
  decide (s.programOffset a < 4 * s.plat.program.words.length)

/-- Whether a byte of an access is inside the address range of `PROGRAM` (R60). -/
def State.touchesProgram (s : State) (addr : BitVec s.xlen.bits) (n : Nat) : Bool :=
  (accessAddrs addr n).any fun a => s.inProgram a

/-- Fetch at the pc (R70): the word of `PROGRAM` there; or the end of the run, just past its last word (R177);
or neither (R157). -/
def State.fetch (s : State) : Fetched :=
  let off := s.programOffset s.pc.toNat
  if off % 4 = 0 then
    match s.plat.program.words[off / 4]? with
    | some inst => .word inst
    | none => if off / 4 = s.plat.program.words.length then .ended else .outside
  else .outside

/-- What a step answers when every word of `PROGRAM` matches a row; otherwise the refusal of the whole program: "a
program containing it is not given a meaning" (R85). Which word the refusal names is the model's choice
(notes/assumptions/20.md). -/
def State.ifProgramHasMeaning (s : State) (r : Result) : Result :=
  match s.plat.program.unknownWord? s.plat.enc with
  | none => r
  | some inst => .refused (.unknownWordInProgram inst s.pc.toNat)

/-- `PROGRAM` with a word placed at the pc: in place of the word there when every other word matches a row, so that the
program has a meaning if the word placed has one (R85); otherwise as the only word. -/
def State.programWithWord (s : State) (inst : InstWord) : Program :=
  match s.fetch with
  | .word _ =>
    let words := s.plat.program.words.set (s.programOffset s.pc.toNat / 4) inst
    if words.all fun w => w == inst || (findRow s.plat.enc w).isSome then { s.plat.program with words := words }
    else { base := s.pc.toNat, words := [inst] }
  | _ => { base := s.pc.toNat, words := [inst] }

/-! ### Exceptions -/

/-- Taking an exception (R146): a fatal trap, whose outcome names the exception, its information and the pc.
No register, no byte of memory and not the pc has changed (R147); there is no handler and no return (R148). -/
def raise (e : Exception) (s : State) : Result :=
  .fault (.trap e s.pc.toNat)

/-- The cause numbers of R140, for reference only: no rule stores one. -/
def Exception.causeNumber : Exception → Nat
  | .instructionAccessFault _ => 1
  | .illegalInstruction _ => 2
  | .loadAccessFault _ => 5
  | .storeAccessFault _ => 7

end Sys2Proof.Machine
end

