-- ==== Sys2Proof/Machine/Operands.lean ====
section
/-! DEFINITION. The one operand form of the fourteen instructions, base register plus signed offset (R45),
and the extension and truncation of the value moved (R8, R9). -/
namespace Sys2Proof.Machine

/-- `offset = sext_XLEN(imm)` (R45, R75, R76): a byte count, not scaled. -/
def signedOffset (x : Xlen) (imm : Imm12) : BitVec x.bits :=
  imm.signExtend x.bits

/-- The effective address `x[rs1] + offset`, modulo `2^XLEN` (R45, R10). -/
def State.effAddr (s : State) (rs1 : RegIdx) (imm : Imm12) : BitVec s.xlen.bits :=
  s.readReg rs1 + signedOffset s.xlen imm

/-- How a loaded value fills the register (R9). -/
inductive Extension
  | sext
  | zext
deriving DecidableEq, Repr

/-- `ext_XLEN(v)` (R9): the identity when `v` has `XLEN` bits already. -/
def Extension.apply (e : Extension) {m : Nat} (v : BitVec m) (w : Nat) : BitVec w :=
  match e with
  | .sext => v.signExtend w
  | .zext => v.setWidth w

/-- `trunc_8n(x[rs2])` (R8, R120): the low `8n` bits; "the upper (more significant) bits are ignored". -/
def State.storeValue (s : State) (rs2 : RegIdx) (n : Nat) : BitVec (8 * n) :=
  (s.readReg rs2).setWidth (8 * n)

end Sys2Proof.Machine
end

