-- ==== Sys2Proof/Machine/Flags.lean ====
section
/-! DEFINITION. There are no flags. "There are no status flags, condition codes or predicates. No load or
store sets or reads any flag; in particular the effective-address addition records no carry or overflow" (R27
of 10_state.md). This file therefore defines nothing. -/
end

