-- ==== Sys2Proof/Machine/Loads.lean ====
section
/-! DEFINITION. The nine loads (R100 to R112): one shared operation, and for each instruction its least `XLEN`,
its access size in bytes and its extension. -/
namespace Sys2Proof.Machine

/-- Common load semantics (R100): availability, then the address, then the memory read, then the register
write, then the pc. With `rd = 0` all of it is performed and the value is discarded (R110); with `rd = rs1` the
address uses the old value (R111). -/
def loadOp (minXlen n : Nat) (ext : Extension) (i : Instr) (rd rs1 : RegIdx) (imm : Imm12) (s : State) : Result :=
  if s.xlen.bits < minXlen then raise (.illegalInstruction (encode s.plat.enc i)) s
  else
    let addr := s.effAddr rs1 imm
    if s.admits addr n .read then
      match s.bytesAt addr n with
      | some v => .next (s.writeReg rd (ext.apply v s.xlen.bits)).advancePc
      | none => .fault (.unspecifiedByte addr.toNat s.pc.toNat)
    else raise (.loadAccessFault addr.toNat) s

/-- LB (R101): `x[rd] <- sext_XLEN(MemRead(addr, 1))`. -/
def execLb (rd rs1 : RegIdx) (imm : Imm12) (s : State) : Result :=
  loadOp 32 1 .sext (.lb rd rs1 imm) rd rs1 imm s

/-- LBU (R102): `x[rd] <- zext_XLEN(MemRead(addr, 1))`. -/
def execLbu (rd rs1 : RegIdx) (imm : Imm12) (s : State) : Result :=
  loadOp 32 1 .zext (.lbu rd rs1 imm) rd rs1 imm s

/-- LH (R103): `x[rd] <- sext_XLEN(MemRead(addr, 2))`. -/
def execLh (rd rs1 : RegIdx) (imm : Imm12) (s : State) : Result :=
  loadOp 32 2 .sext (.lh rd rs1 imm) rd rs1 imm s

/-- LHU (R104): `x[rd] <- zext_XLEN(MemRead(addr, 2))`. -/
def execLhu (rd rs1 : RegIdx) (imm : Imm12) (s : State) : Result :=
  loadOp 32 2 .zext (.lhu rd rs1 imm) rd rs1 imm s

/-- LW (R105): `x[rd] <- sext_XLEN(MemRead(addr, 4))`, the identity when `XLEN` = 32. -/
def execLw (rd rs1 : RegIdx) (imm : Imm12) (s : State) : Result :=
  loadOp 32 4 .sext (.lw rd rs1 imm) rd rs1 imm s

/-- LWU (R106), at `XLEN` = 64 and 128 only: `x[rd] <- zext_XLEN(MemRead(addr, 4))`. -/
def execLwu (rd rs1 : RegIdx) (imm : Imm12) (s : State) : Result :=
  loadOp 64 4 .zext (.lwu rd rs1 imm) rd rs1 imm s

/-- LD (R107), at `XLEN` = 64 and 128 only: `x[rd] <- sext_XLEN(MemRead(addr, 8))`, the identity when
`XLEN` = 64. -/
def execLd (rd rs1 : RegIdx) (imm : Imm12) (s : State) : Result :=
  loadOp 64 8 .sext (.ld rd rs1 imm) rd rs1 imm s

/-- LDU (R108), at `XLEN` = 128 only: `x[rd] <- zext_128(MemRead(addr, 8))`. -/
def execLdu (rd rs1 : RegIdx) (imm : Imm12) (s : State) : Result :=
  loadOp 128 8 .zext (.ldu rd rs1 imm) rd rs1 imm s

/-- LQ (R109), at `XLEN` = 128 only: `x[rd] <- MemRead(addr, 16)`. The value has all 128 bits, so the
extension is the identity. -/
def execLq (rd rs1 : RegIdx) (imm : Imm12) (s : State) : Result :=
  loadOp 128 16 .zext (.lq rd rs1 imm) rd rs1 imm s

end Sys2Proof.Machine
end

