-- ==== Sys2Proof/Machine/Stores.lean ====
section
/-! DEFINITION. The five stores (R120 to R127): one shared operation, and for each instruction its least `XLEN`
and its access size in bytes. -/
namespace Sys2Proof.Machine

/-- Common store semantics (R120): availability, then the address; a store with a byte inside PROGRAM's range is
refused, before validity is asked (R60); then every byte must be valid for writing or none is written (R47,
R143); then the bytes are written, and the pc advances. No register is written. -/
def storeOp (minXlen n : Nat) (i : Instr) (rs2 rs1 : RegIdx) (imm : Imm12) (s : State) : Result :=
  if s.xlen.bits < minXlen then raise (.illegalInstruction (encode s.plat.enc i)) s
  else
    let addr := s.effAddr rs1 imm
    if s.touchesProgram addr n then .refused (.storeToProgram addr.toNat s.pc.toNat)
    else if s.admits addr n .write then
      .next (s.writeBytes addr n (s.storeValue rs2 n)).advancePc
    else raise (.storeAccessFault addr.toNat) s

/-- SB (R121): `MemWrite(addr, 1, x[rs2][7:0])`. -/
def execSb (rs2 rs1 : RegIdx) (imm : Imm12) (s : State) : Result :=
  storeOp 32 1 (.sb rs2 rs1 imm) rs2 rs1 imm s

/-- SH (R122): `MemWrite(addr, 2, x[rs2][15:0])`. -/
def execSh (rs2 rs1 : RegIdx) (imm : Imm12) (s : State) : Result :=
  storeOp 32 2 (.sh rs2 rs1 imm) rs2 rs1 imm s

/-- SW (R123): `MemWrite(addr, 4, x[rs2][31:0])`. -/
def execSw (rs2 rs1 : RegIdx) (imm : Imm12) (s : State) : Result :=
  storeOp 32 4 (.sw rs2 rs1 imm) rs2 rs1 imm s

/-- SD (R124), at `XLEN` = 64 and 128 only: `MemWrite(addr, 8, x[rs2][63:0])`. -/
def execSd (rs2 rs1 : RegIdx) (imm : Imm12) (s : State) : Result :=
  storeOp 64 8 (.sd rs2 rs1 imm) rs2 rs1 imm s

/-- SQ (R125), at `XLEN` = 128 only: `MemWrite(addr, 16, x[rs2])`. -/
def execSq (rs2 rs1 : RegIdx) (imm : Imm12) (s : State) : Result :=
  storeOp 128 16 (.sq rs2 rs1 imm) rs2 rs1 imm s

end Sys2Proof.Machine
end

