-- ==== Sys2Proof/Machine/Step.lean ====
section
/-! DEFINITION. One step of the hart (R20): fetch at the pc, decode, perform. -/
namespace Sys2Proof.Machine

/-- One step. A word that matches no row is refused, and so is every step of a program that contains one anywhere, at
its end and outside it too (R85; notes/assumptions/20.md). Otherwise: at the end of the run the hart has stopped and
nothing changes any more (R177, notes/assumptions/7.md); a fetch outside PROGRAM is an instruction access fault (R157);
a word of PROGRAM is performed. The order is that of R145. -/
def step (s : State) : Host.Outcome State Fault Refusal :=
  match s.fetch with
  | .ended => s.ifProgramHasMeaning (.next s)
  | .outside => s.ifProgramHasMeaning (raise (.instructionAccessFault s.pc.toNat) s)
  | .word inst =>
    match decode s.plat.enc inst with
    | .ok i => s.ifProgramHasMeaning (exec i s)
    | .error _ => .refused (.unknownWord inst s.pc.toNat)

/-- The state with the word `w` (of `nbits` bits) placed where the next step fetches: the load of a program from
outside the machine (R70, notes/assumptions/6.md). Inside a PROGRAM whose other words all match a row the word at the pc
is replaced; elsewhere PROGRAM becomes that one word, at the pc. -/
def State.withFetchWord (s : State) (nbits w : Nat) : State :=
  { s with plat := { s.plat with program := s.programWithWord (tableWord nbits w) } }

end Sys2Proof.Machine
end

