-- ==== Sys2Proof/Machine/Assembler.lean ====
section
/-! DEFINITION. The assembler syntax (R88, R24, R90) and the word a line assembles to (R77, R89). It is outside the
machine: no step uses it. The source's own syntax is normative (D22); the toolchain conveniences that R88, R24 and
R90 list for information are accepted too (notes/assumptions/15.md), and where they leave a spelling open the model
chooses (notes/assumptions/19.md). -/
namespace Sys2Proof.Machine

/-- A line of assembly: `Lx RegD,Immed-12(Reg1)` or `Sx Reg2,Immed-12(Reg1)` (R88). -/
structure AsmLine where
  op : Op
  /-- `RegD` of a load, `Reg2` of a store: the data register stands first. -/
  data : Nat
  offset : Int
  /-- `Reg1`. -/
  base : Nat
deriving DecidableEq, Repr

/-- Why a line has no word. -/
inductive AsmError
  /-- The text is not a line of the general form. -/
  | notALine
  /-- A register number above 31 (R21). -/
  | noSuchRegister
  /-- An offset outside -2048 .. 2047 (R77). -/
  | offsetRange
deriving DecidableEq, Repr

/-- Assembly to fields (R89): the instruction of a line, or the assembly error of R77. DESIGN CHOICE
(notes/assumptions/19.md): a line with both errors reports the register. -/
def AsmLine.instr (l : AsmLine) : Except AsmError Instr :=
  if 31 < l.data || 31 < l.base then .error .noSuchRegister
  else if l.offset < -2048 || 2047 < l.offset then .error .offsetRange
  else .ok (l.op.instr (BitVec.ofNat 5 l.data) (BitVec.ofNat 5 l.base) (BitVec.ofInt 12 l.offset))

/-- The word of a line (R89). -/
def AsmLine.word (e : Encodings) (l : AsmLine) : Except AsmError InstWord :=
  match l.instr with
  | .ok i => .ok (encode e i)
  | .error r => .error r

/-! ### Reading a line of text -/

/-- A decimal digit's value. -/
def digit? (c : Char) : Option Nat :=
  if '0'.toNat ≤ c.toNat && c.toNat ≤ '9'.toNat then some (c.toNat - '0'.toNat) else none

/-- A hexadecimal digit's value. -/
def hexDigit? (c : Char) : Option Nat :=
  if 'a'.toNat ≤ c.toNat && c.toNat ≤ 'f'.toNat then some (c.toNat - 'a'.toNat + 10) else digit? c

/-- A non-empty list of digits read as a number, given the digits' values and the number so far. -/
def readDigits (radix : Nat) (value? : Char → Option Nat) : Nat → List Char → Option Nat
  | acc, [] => some acc
  | acc, c :: rest =>
    match value? c with
    | some d => readDigits radix value? (radix * acc + d) rest
    | none => none

/-- A number without sign: decimal (R88), or hexadecimal after `0x` (a toolchain convenience). DESIGN CHOICE
(notes/assumptions/19.md): leading zeros are accepted, and a line being read without regard to case, so are `0X` and
capital hexadecimal digits. -/
def readNat : List Char → Option Nat
  | [] => none
  | '0' :: 'x' :: [] => none
  | '0' :: 'x' :: rest => readDigits 16 hexDigit? 0 rest
  | cs => readDigits 10 digit? 0 cs

/-- An offset: a signed number; an omitted one is 0 (a toolchain convenience, R90). DESIGN CHOICE
(notes/assumptions/19.md): the only sign is `-`, so an explicit plus sign, on which the spec is silent, is refused; `-`
may stand before a hexadecimal number. -/
def readOffset : List Char → Option Int
  | [] => some 0
  | '-' :: cs => (readNat cs).map fun n => -(n : Int)
  | cs => (readNat cs).map fun n => (n : Int)

/-- The ABI register names (R24), with their numbers. -/
def abiNames : List (List Char × Nat) :=
  [(['z', 'e', 'r', 'o'], 0), (['r', 'a'], 1), (['s', 'p'], 2), (['g', 'p'], 3), (['t', 'p'], 4), (['f', 'p'], 8)]

/-- The ABI families (R24): letter, first and last number, and the register of the first. -/
def abiFamilies : List (Char × Nat × Nat × Nat) :=
  [('t', 0, 2, 5), ('s', 0, 1, 8), ('a', 0, 7, 10), ('s', 2, 11, 18), ('t', 3, 6, 28)]

/-- A register name: `x0` .. `x31` (R21), or an ABI alias (R24). DESIGN CHOICE (notes/assumptions/19.md): leading zeros
in the number are accepted (`x04`, `a00`), and a line being read without regard to case, so are capital names (`X4`,
`A0`). -/
def readRegister (cs : List Char) : Option Nat :=
  match abiNames.lookup cs with
  | some r => some r
  | none =>
    match cs with
    | [] => none
    | 'x' :: ds => if ds = [] then none else readDigits 10 digit? 0 ds
    | c :: ds =>
      match (if ds = [] then none else readDigits 10 digit? 0 ds) with
      | none => none
      | some n =>
        (abiFamilies.find? fun f => f.1 == c && decide (f.2.1 ≤ n) && decide (n ≤ f.2.2.1)).map
          fun f => f.2.2.2 + (n - f.2.1)

/-- The mnemonics (R1), in lower case. -/
def mnemonics : List (List Char × Op) :=
  [(['l', 'b'], .lb), (['l', 'b', 'u'], .lbu), (['l', 'h'], .lh), (['l', 'h', 'u'], .lhu), (['l', 'w'], .lw),
   (['l', 'w', 'u'], .lwu), (['l', 'd'], .ld), (['l', 'd', 'u'], .ldu), (['l', 'q'], .lq),
   (['s', 'b'], .sb), (['s', 'h'], .sh), (['s', 'w'], .sw), (['s', 'd'], .sd), (['s', 'q'], .sq)]

/-- Lower case of a letter; other characters stay. -/
def lower (c : Char) : Char :=
  if 'A'.toNat ≤ c.toNat && c.toNat ≤ 'Z'.toNat then Char.ofNat (c.toNat + 32) else c

/-- White space inside a line. -/
def isBlank (c : Char) : Bool :=
  c == ' ' || c == '\t'

/-- A line without its comment, which runs from `#` to the end (R88). -/
def dropComment (cs : List Char) : List Char :=
  cs.takeWhile fun c => c != '#'

/-- The characters before the first one that meets `p`, and those after it; none if there is none. -/
def cutAt (p : Char → Bool) (cs : List Char) : Option (List Char × List Char) :=
  match cs.dropWhile fun c => !p c with
  | [] => none
  | _ :: rest => some (cs.takeWhile fun c => !p c, rest)

/-- Reading a line: the mnemonic, white space, the data register, a comma, the offset, the base register in
parentheses, and nothing after it but white space (R88). DESIGN CHOICE (notes/assumptions/19.md): case makes no
difference anywhere in the line, of which R88 says so for the mnemonic only; a blank may stand before the mnemonic,
after the comma and at the line's end, and nowhere else after the data register begins. -/
def readLine (line : List Char) : Except AsmError AsmLine :=
  let cs := ((dropComment line).map lower).dropWhile isBlank
  match cutAt isBlank cs with
  | none => .error .notALine
  | some (name, rest) =>
    match cutAt (fun c => c == ',') (rest.dropWhile isBlank) with
    | none => .error .notALine
    | some (dataText, rest) =>
      match cutAt (fun c => c == '(') (rest.dropWhile isBlank) with
      | none => .error .notALine
      | some (offsetText, rest) =>
        match cutAt (fun c => c == ')') rest with
        | none => .error .notALine
        | some (baseText, rest) =>
          match mnemonics.lookup name, readRegister dataText, readOffset offsetText, readRegister baseText with
          | some op, some data, some offset, some base =>
            if rest.all isBlank then .ok { op := op, data := data, offset := offset, base := base }
            else .error .notALine
          | _, _, _, _ => .error .notALine

/-- The word a line of text assembles to (R88, R89). -/
def assemble (e : Encodings) (line : List Char) : Except AsmError InstWord :=
  match readLine line with
  | .ok l => l.word e
  | .error r => .error r

end Sys2Proof.Machine
end

