-- ==== Sys2Proof/Machine/Atomicity.lean ====
section
/-! DEFINITION. Alignment (R43) and the indivisible pieces of an access (R50, R51, R52), in terms of which a
platform with another agent would read the model. Alignment is never required (R44): no meaning consults it. With
one hart the pieces are unobservable (D6); a statement says that a store's pieces, in any order, leave the memory the
meanings leave (notes/assumptions/13.md). -/
namespace Sys2Proof.Machine

/-- "Properly aligned": `addr mod n = 0`, to the access's own size (R43, D23). -/
def isAligned {w : Nat} (addr : BitVec w) (n : Nat) : Bool :=
  addr.toNat % n == 0

/-- The events an `n`-byte access at `addr` is made of, each a list of byte addresses: one event when aligned (R50;
for one byte, R52), else one event for each byte (R51). -/
def accessEvents {w : Nat} (addr : BitVec w) (n : Nat) : List (List Nat) :=
  if isAligned addr n then [accessAddrs addr n] else (accessAddrs addr n).map fun a => [a]

/-- The events of a store, with the bytes written (R50, R51). -/
def storeEvents {w : Nat} (addr : BitVec w) (n : Nat) (v : BitVec (8 * n)) : List (List (Nat × Byte)) :=
  if isAligned addr n then [storeBytes addr n v] else (storeBytes addr n v).map fun c => [c]

/-- The memory after a list of events, one after another. -/
def Memory.applyEvents : Memory → List (List (Nat × Byte)) → Memory
  | m, [] => m
  | m, e :: rest => Memory.applyEvents (m.setAll e) rest

end Sys2Proof.Machine
end

