-- ==== Sys2Proof/Safety.lean ====
section
/-! DEFINITION. The terms the statements use: what a state must meet, what a run is, what an instruction reads and
writes, and registers, addresses and values as numbers. The tables here are written from the rules and used by no
meaning. -/
namespace Sys2Proof

/-! ### What an instruction is made of (R42, R88; the summary tables of 40_loads.md and 41_stores.md) -/

/-- A load, as opposed to a store (R1). -/
def Instr.isLoad : Instr → Bool
  | .lb _ _ _ | .lbu _ _ _ | .lh _ _ _ | .lhu _ _ _ | .lw _ _ _ => true
  | .lwu _ _ _ | .ld _ _ _ | .ldu _ _ _ | .lq _ _ _ => true
  | .sb _ _ _ | .sh _ _ _ | .sw _ _ _ | .sd _ _ _ | .sq _ _ _ => false

/-- The width of the memory access in bytes (R42). -/
def Instr.bytes : Instr → Nat
  | .lb _ _ _ | .lbu _ _ _ | .sb _ _ _ => 1
  | .lh _ _ _ | .lhu _ _ _ | .sh _ _ _ => 2
  | .lw _ _ _ | .lwu _ _ _ | .sw _ _ _ => 4
  | .ld _ _ _ | .ldu _ _ _ | .sd _ _ _ => 8
  | .lq _ _ _ | .sq _ _ _ => 16

/-- A load that sign-extends (the last column of R78). -/
def Instr.isSigned : Instr → Bool
  | .lb _ _ _ | .lh _ _ _ | .lw _ _ _ | .ld _ _ _ => true
  | .lbu _ _ _ | .lhu _ _ _ | .lwu _ _ _ | .ldu _ _ _ | .lq _ _ _ => false
  | .sb _ _ _ | .sh _ _ _ | .sw _ _ _ | .sd _ _ _ | .sq _ _ _ => false

/-- The data register: `rd` of a load, `rs2` of a store (R88). -/
def Instr.data : Instr → RegIdx
  | .lb r _ _ | .lbu r _ _ | .lh r _ _ | .lhu r _ _ | .lw r _ _ | .lwu r _ _ | .ld r _ _ | .ldu r _ _ | .lq r _ _ => r
  | .sb r _ _ | .sh r _ _ | .sw r _ _ | .sd r _ _ | .sq r _ _ => r

/-- The base register `rs1` (R45). -/
def Instr.base : Instr → RegIdx
  | .lb _ r _ | .lbu _ r _ | .lh _ r _ | .lhu _ r _ | .lw _ r _ | .lwu _ r _ | .ld _ r _ | .ldu _ r _ | .lq _ r _ => r
  | .sb _ r _ | .sh _ r _ | .sw _ r _ | .sd _ r _ | .sq _ r _ => r

/-- The 12-bit offset (R45). -/
def Instr.imm : Instr → Imm12
  | .lb _ _ i | .lbu _ _ i | .lh _ _ i | .lhu _ _ i | .lw _ _ i | .lwu _ _ i | .ld _ _ i | .ldu _ _ i | .lq _ _ i => i
  | .sb _ _ i | .sh _ _ i | .sw _ _ i | .sd _ _ i | .sq _ _ i => i

/-- The same instruction with another data register. -/
def Instr.withData (i : Instr) (r : RegIdx) : Instr :=
  i.op.instr r i.base i.imm

/-- The registers an instruction reads (R23). -/
def Instr.reads (i : Instr) : List RegIdx :=
  if i.isLoad then [i.base] else [i.base, i.data]

/-- The registers an instruction writes (R23). -/
def Instr.writes (i : Instr) : List RegIdx :=
  if i.isLoad then [i.data] else []

/-! ### Values as numbers (R7, R9) -/

/-- An `m`-bit number sign-extended to `x` bits: the same signed integer (R9). -/
def sextNat (m x v : Nat) : Nat :=
  if 2 * v < 2 ^ m then v else 2 ^ x - 2 ^ m + v

/-- The little-endian number made of the first `n` of a sequence of bytes (R41). -/
def leSum (b : Nat → Byte) : Nat → Nat
  | 0 => 0
  | n + 1 => leSum b n + (b n).toNat * 256 ^ n

/-- What a load of the number `v` puts into an `x`-bit register (R100). -/
def Instr.loadedNat (i : Instr) (x v : Nat) : Nat :=
  if i.isSigned then sextNat (8 * i.bytes) x v else v

namespace Machine

/-- A register's value as a number (R7). -/
def State.regNat (s : State) (r : RegIdx) : Nat :=
  (s.readReg r).toNat

/-- The pc as a number. -/
def State.pcNat (s : State) : Nat :=
  s.pc.toNat

/-- The number of addresses, `2^XLEN` (R40). -/
def State.space (s : State) : Nat :=
  2 ^ s.xlen.bits

/-- The effective address of an instruction, as the meanings compute it. -/
def State.addrOf (s : State) (i : Instr) : BitVec s.xlen.bits :=
  s.effAddr i.base i.imm

/-- The bytes of an access at `addr` have the values `b 0`, `b 1`, ... -/
def State.HoldsBytes (s : State) (addr : BitVec s.xlen.bits) (n : Nat) (b : Nat → Byte) : Prop :=
  ∀ j < n, s.mem.get? (byteAddr addr j) = some (b j)

/-- The little-endian number of the `n` bytes from address `a` on, modulo the address space, if each has a value. -/
def State.numberAt (s : State) (a n : Nat) : Option Nat :=
  (s.mem.getAll ((List.range n).map fun j => (a + j) % s.space)).map leNat

/-! ### The state after an instruction -/

/-- `t` is `s` but for `pc <- pc + 4`, the value `v` in `rd`, and nothing else (R23, R25, R100). -/
def LoadLeaves (s t : State) (rd : RegIdx) (v : Nat) : Prop :=
  t.xlen = s.xlen ∧ t.plat = s.plat ∧ t.mem = s.mem ∧ t.pcNat = (s.pcNat + 4) % s.space ∧
    ∀ r, t.regNat r = if r = 0 then 0 else if r = rd then v else s.regNat r

/-- `t` is `s` but for `pc <- pc + 4`, the `n` bytes at `addr`, which hold the low `8n` bits of the number `v`, and
nothing else (R23, R25, R120). -/
def StoreLeaves (s t : State) (addr : BitVec s.xlen.bits) (n v : Nat) : Prop :=
  t.xlen = s.xlen ∧ t.plat = s.plat ∧ t.pcNat = (s.pcNat + 4) % s.space ∧ (∀ r, t.regNat r = s.regNat r) ∧
    (∀ j < n, t.mem.get? (byteAddr addr j) = some (BitVec.ofNat 8 (v / 256 ^ j))) ∧
    ∀ a, a ∉ accessAddrs addr n → t.mem.get? a = s.mem.get? a

/-- The state with another memory. -/
def State.withMem (s : State) (m : Memory) : State :=
  { s with mem := m }

/-- A result whose next state, if there is one, has another memory. -/
def withMemory (m : Memory) : Result → Result
  | .next t => .next (t.withMem m)
  | .fault f => .fault f
  | .refused r => .refused r

/-! ### Invariants and runs -/

/-- What every run keeps: memory is in canonical form (R30) and lists only addresses that exist (R40); the pc is a
multiple of 4 (R26); PROGRAM is well formed (R70) and the rows of the opcode table are distinct (R81). -/
def State.Inv (s : State) : Prop :=
  s.mem.wf = true ∧ cellsInSpace s.xlen s.mem = true ∧ s.pcNat % 4 = 0 ∧
    s.plat.program.wf s.xlen = true ∧ s.plat.enc.wf = true

/-- `k` steps from a state, by the host's own definition of a run. -/
def runFor (k : Nat) (s : State) : Result :=
  Host.Core.run Sys2Proof.core k s

/-- A run of `k` steps is safe when no step of it faults or is refused. -/
def State.SafeFor (s : State) (k : Nat) : Prop :=
  ∃ t, runFor k s = .next t

/-- PROGRAM has a meaning: every word of it matches a row of the opcode table (R85). -/
def State.ProgramHasMeaning (s : State) : Prop :=
  ∀ inst ∈ s.plat.program.words, ∃ i, decode s.plat.enc inst = .ok i

/-- The run has ended successfully: the pc is just past the last word of PROGRAM (R177). -/
def State.AtEnd (s : State) : Prop :=
  s.pcNat = (s.plat.program.base + 4 * s.plat.program.words.length) % s.space

end Machine
end Sys2Proof
end

