-- ==== Sys2Proof/Certificates/Slice0/Obligations.lean ====
section
/-! DEFINITION. The statements for the provers, in the order of OBLIGATIONS.json. Each docstring names the rule of
the spec it formalises, or the model's own choice it rests on. -/

open Sys2Proof Sys2Proof.Machine

/-! ### Encoding and decoding -/

/-- The words of the source's fourteen examples S1 to S14 (95_test_vectors.md section 1), written out from the
encodings of R73 to R80, decode to `Lx x4,1234(x9)` and `Sx x4,1234(x9)`. -/
def Obligations.SourceExamplesDecode : Prop :=
  decode Encodings.default 0b010011010010_01001_000_00100_0000011#32 = .ok (.lb 4 9 1234) ∧
  decode Encodings.default 0b010011010010_01001_100_00100_0000011#32 = .ok (.lbu 4 9 1234) ∧
  decode Encodings.default 0b010011010010_01001_001_00100_0000011#32 = .ok (.lh 4 9 1234) ∧
  decode Encodings.default 0b010011010010_01001_101_00100_0000011#32 = .ok (.lhu 4 9 1234) ∧
  decode Encodings.default 0b010011010010_01001_010_00100_0000011#32 = .ok (.lw 4 9 1234) ∧
  decode Encodings.default 0b010011010010_01001_110_00100_0000011#32 = .ok (.lwu 4 9 1234) ∧
  decode Encodings.default 0b010011010010_01001_011_00100_0000011#32 = .ok (.ld 4 9 1234) ∧
  decode Encodings.default 0b010011010010_01001_111_00100_0000011#32 = .ok (.ldu 4 9 1234) ∧
  decode Encodings.default 0b010011010010_01001_010_00100_0001111#32 = .ok (.lq 4 9 1234) ∧
  decode Encodings.default 0b0100110_00100_01001_000_10010_0100011#32 = .ok (.sb 4 9 1234) ∧
  decode Encodings.default 0b0100110_00100_01001_001_10010_0100011#32 = .ok (.sh 4 9 1234) ∧
  decode Encodings.default 0b0100110_00100_01001_010_10010_0100011#32 = .ok (.sw 4 9 1234) ∧
  decode Encodings.default 0b0100110_00100_01001_011_10010_0100011#32 = .ok (.sd 4 9 1234) ∧
  decode Encodings.default 0b0100110_00100_01001_100_10010_0100011#32 = .ok (.sq 4 9 1234)

/-- The `match` column of R78, R79 and R80 with the default encodings. -/
def Obligations.TableHasTheMatchesOfTheOpcodeMap : Prop :=
  (opcodeTable Encodings.default).map (fun r => (r.op, r.code.matchWord)) =
    [(.lb, 0x00000003#32), (.lbu, 0x00004003#32), (.lh, 0x00001003#32), (.lhu, 0x00005003#32),
     (.lw, 0x00002003#32), (.lwu, 0x00006003#32), (.ld, 0x00003003#32), (.ldu, 0x00007003#32),
     (.lq, 0x0000200F#32), (.sb, 0x00000023#32), (.sh, 0x00001023#32), (.sw, 0x00002023#32),
     (.sd, 0x00003023#32), (.sq, 0x00004023#32)]

/-- Decoding the word of an instruction gives the instruction back, for all fourteen, every operand, and every
choice of the replaceable codes that leaves the rows distinct (R81, R89). -/
def Obligations.DecodeOfEncode : Prop :=
  ∀ (e : Encodings) (i : Instr), e.wf = true → decode e (encode e i) = .ok i

/-- Encoding what a word decodes to gives the word, whatever the replaceable codes (R81, R89). -/
def Obligations.EncodeOfDecode : Prop :=
  ∀ (e : Encodings) (inst : InstWord) (i : Instr), decode e inst = .ok i → encode e i = inst

/-- "At most one, the matches are distinct" (R81), for every admissible choice of the replaceable codes. -/
def Obligations.RowsAreDistinct : Prop :=
  ∀ e : Encodings, e.wf = true →
    (opcodeTable e).Pairwise fun r q => r.code.matchWord ≠ q.code.matchWord

/-- A word that matches no row has no step (R85), whatever else the state holds; in particular STORE with funct3
101, 110 or 111, MISC-MEM with funct3 other than 010, words whose bits 1:0 are not 11, and the all-zero and the
all-one word. A program that contains such a word anywhere has no step at all (R85). That this covers a pc at the end of
the run or outside PROGRAM is the model's inference, and which refusal it is and which word it names are the model's
choice (notes/assumptions/20.md). -/
def Obligations.UnmatchedWordsAreRefused : Prop :=
  (∀ (s : State) (inst : InstWord), s.fetch = .word inst →
    (∀ r ∈ opcodeTable s.plat.enc, r.code.matchWord ≠ inst &&& 0x0000707F#32) →
      step s = .refused (.unknownWord inst s.pcNat)) ∧
  (∀ (s : State) (inst : InstWord), inst ∈ s.plat.program.words →
    (∀ r ∈ opcodeTable s.plat.enc, r.code.matchWord ≠ inst &&& 0x0000707F#32) →
      ∃ w ∈ s.plat.program.words, (∀ r ∈ opcodeTable s.plat.enc, r.code.matchWord ≠ w &&& 0x0000707F#32) ∧
        (step s = .refused (.unknownWord w s.pcNat) ∨ step s = .refused (.unknownWordInProgram w s.pcNat))) ∧
  ∀ (s : State) (inst : InstWord), s.fetch = .word inst → s.plat.enc = Encodings.default →
    ((inst.extractLsb' 0 7 = 0b0100011#7 ∧ 5 ≤ (inst.extractLsb' 12 3).toNat) ∨
      (inst.extractLsb' 0 7 = 0b0001111#7 ∧ inst.extractLsb' 12 3 ≠ 0b010#3) ∨
      inst.extractLsb' 0 2 ≠ 0b11#2 ∨ inst = 0#32 ∨ inst = 0xFFFFFFFF#32) →
      step s = .refused (.unknownWord inst s.pcNat)

/-- Where the fields of a word lie (R72 to R76), as numbers. -/
def Obligations.FieldsReadTheirBits : Prop :=
  ∀ inst : InstWord,
    (fieldRd inst).toNat = inst.toNat / 2 ^ 7 % 2 ^ 5 ∧
    (fieldRs1 inst).toNat = inst.toNat / 2 ^ 15 % 2 ^ 5 ∧
    (fieldRs2 inst).toNat = inst.toNat / 2 ^ 20 % 2 ^ 5 ∧
    (fieldImmI inst).toNat = inst.toNat / 2 ^ 20 ∧
    (fieldImmS inst).toNat = inst.toNat / 2 ^ 25 * 2 ^ 5 + inst.toNat / 2 ^ 7 % 2 ^ 5

/-- The offset is the immediate's bits, not scaled, with `offset[XLEN-1:11]` all equal to `inst[31]` (R75, R76). -/
def Obligations.OffsetsSignExtendTheirFields : Prop :=
  ∀ (x : Xlen) (inst : InstWord) (k : Nat), k < x.bits →
    (signedOffset x (fieldImmI inst)).getLsbD k =
      (if k < 11 then inst.getLsbD (20 + k) else inst.getLsbD 31) ∧
    (signedOffset x (fieldImmS inst)).getLsbD k =
      (if k < 5 then inst.getLsbD (7 + k) else if k < 11 then inst.getLsbD (20 + k) else inst.getLsbD 31)

/-- An instruction word lies in memory in little-endian order (R71): byte `j` holds bits `8j+7 : 8j`, a byte image
loads back to the words it was made of, and `0x4D248203` is `03 82 24 4D`. -/
def Obligations.WordsLieLittleEndian : Prop :=
  (∀ (inst : InstWord) (j : Nat), j < 4 →
    (wordBytes inst)[j]? = some (BitVec.ofNat 8 (inst.toNat / 256 ^ j))) ∧
  (∀ ws : List InstWord, imageWords (imageBytes ws) = .ok ws) ∧
  wordBytes 0x4D248203#32 = [0x03#8, 0x82#8, 0x24#8, 0x4D#8]

/-- Decoding bytes is decoding the word they hold: the first instruction of an image, and the rest of it. -/
def Obligations.DecodeBytesReadsTheFirstWord : Prop :=
  ∀ (e : Encodings) (i : Instr) (rest : List Byte), e.wf = true →
    decodeBytes e (wordBytes (encode e i) ++ rest) = .ok (i, rest)

/-! ### A step -/

/-- When the word at the pc decodes to an instruction, a step is that instruction, and adds nothing to it (R20), in a
program that has a meaning; the program that contains a word matching no row elsewhere is refused (R85), with such a word,
the pc, and a name that is the model's choice (notes/assumptions/20.md). -/
def Obligations.StepRunsDecodedInstruction : Prop :=
  ∀ (s : State) (inst : InstWord) (i : Instr), s.fetch = .word inst → decode s.plat.enc inst = .ok i →
    (s.ProgramHasMeaning → step s = exec i s) ∧
    (¬ s.ProgramHasMeaning → ∃ w ∈ s.plat.program.words, (∀ j, decode s.plat.enc w ≠ .ok j) ∧
      step s = .refused (.unknownWordInProgram w s.pcNat))

/-- "Fetch at `pc` returns that word when `pc = PROGRAM.base + 4k`" (R70). -/
def Obligations.FetchReadsTheProgramWord : Prop :=
  ∀ (s : State) (k : Nat) (inst : InstWord), s.plat.program.wf s.xlen = true →
    s.plat.program.words[k]? = some inst → s.pcNat = (s.plat.program.base + 4 * k) % s.space →
      s.fetch = .word inst

/-- A fetch that is neither in PROGRAM nor at the end of the run raises `InstructionAccessFault(pc)` (R157), in a program
that has a meaning (R85). That no run which starts inside PROGRAM, or at its end, comes to that fault is the spec's own
inference (marked as derived in R157). That which pcs are inside PROGRAM and at its end is taken modulo `2^XLEN` is the
model's (notes/assumptions/8.md). -/
def Obligations.FetchOutsideProgramFaults : Prop :=
  (∀ s : State, s.plat.program.wf s.xlen = true → s.ProgramHasMeaning →
    (∀ k ≤ s.plat.program.words.length, s.pcNat ≠ (s.plat.program.base + 4 * k) % s.space) →
      step s = .fault (.trap (.instructionAccessFault s.pcNat) s.pcNat)) ∧
  ∀ (s t : State) (k j : Nat), s.plat.program.wf s.xlen = true → k ≤ s.plat.program.words.length →
    s.pcNat = (s.plat.program.base + 4 * k) % s.space → runFor j s = .next t →
      ∀ a p, step t ≠ .fault (.trap (.instructionAccessFault a) p)

/-- A run ends when the pc is just past the last word: the hart stops there and the state stays (the model's
rendering of "stops": a step that changes nothing, notes/assumptions/7.md). From the address of word `k` a run
executes the words in order and is at the end after `L - k` steps, unless it faults or is refused on the way
(R177). That the addresses of the words and of the end are taken modulo `2^XLEN` is the model's inference
(notes/assumptions/8.md). The first clause is of programs that have a meaning (R85). -/
def Obligations.RunIsStraightLineAndEnds : Prop :=
  (∀ (s : State) (k : Nat), s.plat.program.wf s.xlen = true → s.ProgramHasMeaning → s.AtEnd →
    runFor k s = .next s) ∧
  ∀ (s t : State) (k j : Nat), s.plat.program.wf s.xlen = true →
    k + j ≤ s.plat.program.words.length → s.pcNat = (s.plat.program.base + 4 * k) % s.space →
    runFor j s = .next t →
      t.plat = s.plat ∧ t.xlen = s.xlen ∧
      t.pcNat = (s.plat.program.base + 4 * (k + j)) % s.space ∧
      (∀ inst, s.plat.program.words[k + j]? = some inst → t.fetch = .word inst) ∧
      (k + j = s.plat.program.words.length → t.AtEnd)

/-- Every one of the fourteen, when it completes, ends with `pc <- pc + 4`; a step changes the pc in no other way;
every fault of a step, whichever it is, reports the pc of its instruction (R25, R146). That a step at the end of the
run (R177) answers the same state is the model's choice (notes/assumptions/7.md), and that a load of a byte without a
value is a fault of its own is the model's reading of R172 (4.md). -/
def Obligations.PcAdvancesByFour : Prop :=
  (∀ (i : Instr) (s t : State), exec i s = .next t → t.pcNat = (s.pcNat + 4) % s.space) ∧
  (∀ s t : State, step s = .next t → t.pcNat = (s.pcNat + 4) % s.space ∨ (s.fetch = .ended ∧ t = s)) ∧
  ∀ (s : State) (f : Fault), step s = .fault f →
    (∃ x, f = .trap x s.pcNat) ∨ ∃ a, f = .unspecifiedByte a s.pcNat

/-- No step changes `XLEN`, `MEM_VALID`, `PROGRAM` or the encodings: fetch is independent of stores (R60), the
parameters are fixed (R6). -/
def Obligations.StepKeepsTheParameters : Prop :=
  ∀ s t : State, step s = .next t → t.xlen = s.xlen ∧ t.plat = s.plat

/-- Every step keeps the invariant, from every state that meets it, reachable or not: memory stays canonical
and inside the address space, the pc stays a multiple of 4, PROGRAM and the encodings stay well formed (R26, R30, R40,
R70, R81). -/
def Obligations.StepKeepsInvariant : Prop :=
  ∀ s t : State, s.Inv → step s = .next t → t.Inv

/-- The state after reset meets the invariant, with the model's parameters and with every well-formed choice of
them (R26, R171). -/
def Obligations.ResetMeetsInvariant : Prop :=
  State.reset.Inv ∧ ∀ p : Params, p.wf = true → (State.resetOf p).Inv

/-- Reset (R170 to R172): the pc is `RESET_PC`, each byte holds what `MEM_INIT` says, `x0` reads 0. That `x1` ..
`x31` read 0 is the model's choice (notes/assumptions/2.md); so are the parameters of `State.reset` (1.md, 3.md). -/
def Obligations.ResetState : Prop :=
  (∀ p : Params, (State.resetOf p).pcNat = p.resetPc.toNat ∧ (State.resetOf p).xlen = p.xlen ∧
    (State.resetOf p).plat = p.plat ∧ (∀ a, (State.resetOf p).mem.get? a = Memory.get? p.memInit a) ∧
    ∀ r, (State.resetOf p).regNat r = 0) ∧
  State.reset.xlen = .rv128 ∧ State.reset.pcNat = 0x1000

/-! ### Registers, addresses, memory -/

/-- A register reads back what was last written to it; `x0` reads 0 and a write of it changes nothing (R21, R22). -/
def Obligations.RegisterReadsBackItsWrite : Prop :=
  ∀ (s : State) (r : RegIdx) (v : BitVec s.xlen.bits),
    s.regNat 0 = 0 ∧ s.writeReg 0 v = s ∧
    ∀ q, (s.writeReg r v).regNat q = if q = 0 then 0 else if q = r then v.toNat else s.regNat q

/-- The effective address (R45): base register plus signed offset, modulo `2^XLEN`; with `rs1 = 0` the base is 0;
the base register is not modified, unless it is the destination of a load. -/
def Obligations.EffectiveAddressIsTheModularSum : Prop :=
  (∀ (s : State) (i : Instr), ((s.addrOf i).toNat : Int) = ((s.regNat i.base : Int) + i.imm.toInt) % (s.space : Int)) ∧
  (∀ (s : State) (imm : Imm12), ((s.effAddr 0 imm).toNat : Int) = imm.toInt % (s.space : Int)) ∧
  ∀ (i : Instr) (s t : State), exec i s = .next t → (i.isLoad = false ∨ i.data ≠ i.base) →
    t.regNat i.base = s.regNat i.base

/-- Byte `j` of an access is at `(addr + j) mod 2^XLEN`: an access that runs past the top continues at 0 (R49). -/
def Obligations.AccessContinuesAtZero : Prop :=
  ∀ (s : State) (addr : BitVec s.xlen.bits) (n j : Nat), n ≤ 16 → j < n →
    (accessAddrs addr n)[j]? = some (if addr.toNat + j < s.space then addr.toNat + j else addr.toNat + j - s.space)

/-- The address range of PROGRAM is the bytes `base .. base + 4L - 1` of its words (R60, R70). That the range is taken
modulo `2^XLEN` is the model's inference (notes/assumptions/8.md). -/
def Obligations.ProgramRangeIsItsWords : Prop :=
  ∀ (s : State) (a : Nat), s.plat.program.wf s.xlen = true → a < s.space →
    (s.inProgram a = true ↔ ∃ d < 4 * s.plat.program.words.length, a = (s.plat.program.base + d) % s.space)

/-- Storing the same value twice is storing it once, as data (R53). -/
def Obligations.StoringTwiceIsStoringOnce : Prop :=
  ∀ (s : State) (addr : BitVec s.xlen.bits) (n : Nat) (v : BitVec (8 * n)), s.mem.wf = true → n ≤ 16 →
    (s.writeBytes addr n v).writeBytes addr n v = s.writeBytes addr n v

/-- The pieces of an access (R50, R51, R52): one event when aligned or one byte wide; otherwise `n` events of one
byte, each byte of the range exactly once and no other. -/
def Obligations.AccessEventsTouchEachByteOnce : Prop :=
  ∀ (s : State) (addr : BitVec s.xlen.bits) (n : Nat), 0 < n → n ≤ 16 →
    (accessEvents addr n).flatten = accessAddrs addr n ∧ (accessAddrs addr n).Nodup ∧
    ((n = 1 ∨ addr.toNat % n = 0) → (accessEvents addr n).length = 1) ∧
    (addr.toNat % n ≠ 0 → (accessEvents addr n).length = n ∧ ∀ e ∈ accessEvents addr n, e.length = 1)

/-- The pieces of a store, performed in any order, leave the memory that the store leaves: with one hart the
splitting is unobservable (R51, D6). -/
def Obligations.StoreEventsInAnyOrderLeaveTheSameMemory : Prop :=
  ∀ (s : State) (addr : BitVec s.xlen.bits) (n : Nat) (v : BitVec (8 * n)) (es : List (List (Nat × Byte))),
    s.mem.wf = true → n ≤ 16 → es.Perm (storeEvents addr n v) →
      s.mem.applyEvents es = (s.writeBytes addr n v).mem

/-! ### What each instruction does

`LoadRule` and `StoreRule` hold what one rule R101 to R109 or R121 to R125 says of its instruction: its words, its
result with everything it leaves unchanged, its exceptions, its atomicity; `IllegalBelow` what it says of a narrower
machine. -/

/-- An instruction `mk r rs1 imm` that needs `minXlen` bits is an illegal instruction on a narrower machine, whatever
its operands and the rest of the state (R84). -/
def Sys2Proof.IllegalBelow (mk : RegIdx → RegIdx → Imm12 → Instr) (minXlen : Nat) : Prop :=
  ∀ (s : State) (r rs1 : RegIdx) (imm : Imm12), s.xlen.bits < minXlen →
    exec (mk r rs1 imm) s =
      .fault (.trap (.illegalInstruction (encode s.plat.enc (mk r rs1 imm))) s.pcNat)

/-- The rule of a load `mk rd rs1 imm` of `n` bytes, available from `minXlen` bits on, with the code `code`, that puts
`value XLEN v` into `rd`, where `v` is the little-endian number of its bytes. -/
def Sys2Proof.LoadRule (mk : RegIdx → RegIdx → Imm12 → Instr) (n minXlen : Nat) (code : Encodings → Code)
    (value : Nat → Nat → Nat) : Prop :=
  -- the word: I-type, `imm_I rs1 funct3 rd opcode`
  (∀ (e : Encodings) (rd rs1 : RegIdx) (imm : Imm12), e.wf = true →
    decode e (imm ++ rs1 ++ (code e).funct3 ++ rd ++ (code e).opcode) = .ok (mk rd rs1 imm)) ∧
  -- completes, with its result, and leaves everything else unchanged
  (∀ (s : State) (rd rs1 : RegIdx) (imm : Imm12) (b : Nat → Byte), minXlen ≤ s.xlen.bits →
    (∀ j < n, s.memValid (byteAddr (s.effAddr rs1 imm) j) .read = true) →
    s.HoldsBytes (s.effAddr rs1 imm) n b →
      ∃ t, exec (mk rd rs1 imm) s = .next t ∧ LoadLeaves s t rd (value s.xlen.bits (leSum b n))) ∧
  -- a byte that is not readable: load access fault, with the effective address
  (∀ (s : State) (rd rs1 : RegIdx) (imm : Imm12), minXlen ≤ s.xlen.bits →
    (∃ j < n, s.memValid (byteAddr (s.effAddr rs1 imm) j) .read = false) →
      exec (mk rd rs1 imm) s = .fault (.trap (.loadAccessFault (s.effAddr rs1 imm).toNat) s.pcNat)) ∧
  -- one event when the address is a multiple of `n`
  ∀ (s : State) (addr : BitVec s.xlen.bits), addr.toNat % n = 0 → accessEvents addr n = [accessAddrs addr n]

/-- The rule of a store `mk rs2 rs1 imm` of the low `n` bytes of `rs2`, available from `minXlen` bits on, with the code
`code`. -/
def Sys2Proof.StoreRule (mk : RegIdx → RegIdx → Imm12 → Instr) (n minXlen : Nat) (code : Encodings → Code) : Prop :=
  -- the word: S-type, `imm_S[11:5] rs2 rs1 funct3 imm_S[4:0] opcode`
  (∀ (e : Encodings) (rs2 rs1 : RegIdx) (hi : BitVec 7) (lo : BitVec 5), e.wf = true →
    decode e (hi ++ rs2 ++ rs1 ++ (code e).funct3 ++ lo ++ (code e).opcode) = .ok (mk rs2 rs1 (hi ++ lo))) ∧
  -- completes, writes its bytes, and leaves everything else unchanged
  (∀ (s : State) (rs2 rs1 : RegIdx) (imm : Imm12), minXlen ≤ s.xlen.bits →
    (∀ j < n, s.inProgram (byteAddr (s.effAddr rs1 imm) j) = false) →
    (∀ j < n, s.memValid (byteAddr (s.effAddr rs1 imm) j) .write = true) →
      ∃ t, exec (mk rs2 rs1 imm) s = .next t ∧ StoreLeaves s t (s.effAddr rs1 imm) n (s.regNat rs2)) ∧
  -- a byte that is not writable: store access fault, with the effective address
  (∀ (s : State) (rs2 rs1 : RegIdx) (imm : Imm12), minXlen ≤ s.xlen.bits →
    (∀ j < n, s.inProgram (byteAddr (s.effAddr rs1 imm) j) = false) →
    (∃ j < n, s.memValid (byteAddr (s.effAddr rs1 imm) j) .write = false) →
      exec (mk rs2 rs1 imm) s = .fault (.trap (.storeAccessFault (s.effAddr rs1 imm).toNat) s.pcNat)) ∧
  -- one event when the address is a multiple of `n`
  ∀ (s : State) (addr : BitVec s.xlen.bits), addr.toNat % n = 0 → accessEvents addr n = [accessAddrs addr n]

/-- LB (R101). -/
def Obligations.LoadByteSigned : Prop :=
  LoadRule .lb 1 32 (fun _ => ⟨0b0000011#7, 0b000#3⟩) (fun x v => sextNat 8 x v)

/-- LBU (R102). -/
def Obligations.LoadByteUnsigned : Prop :=
  LoadRule .lbu 1 32 (fun _ => ⟨0b0000011#7, 0b100#3⟩) (fun _ v => v)

/-- LH (R103). -/
def Obligations.LoadHalfwordSigned : Prop :=
  LoadRule .lh 2 32 (fun _ => ⟨0b0000011#7, 0b001#3⟩) (fun x v => sextNat 16 x v)

/-- LHU (R104). -/
def Obligations.LoadHalfwordUnsigned : Prop :=
  LoadRule .lhu 2 32 (fun _ => ⟨0b0000011#7, 0b101#3⟩) (fun _ v => v)

/-- LW (R105): at `XLEN` = 32 the extension is the identity. -/
def Obligations.LoadWordSigned : Prop :=
  LoadRule .lw 4 32 (fun _ => ⟨0b0000011#7, 0b010#3⟩) (fun x v => if x = 32 then v else sextNat 32 x v)

/-- LWU (R106). -/
def Obligations.LoadWordUnsigned : Prop :=
  LoadRule .lwu 4 64 (fun _ => ⟨0b0000011#7, 0b110#3⟩) (fun _ v => v) ∧ IllegalBelow .lwu 64

/-- LD (R107): at `XLEN` = 64 the extension is the identity. -/
def Obligations.LoadDoublewordSigned : Prop :=
  LoadRule .ld 8 64 (fun _ => ⟨0b0000011#7, 0b011#3⟩) (fun x v => if x = 64 then v else sextNat 64 x v) ∧
    IllegalBelow .ld 64

/-- LDU (R108), with the replaceable code `ENC_LDU`. -/
def Obligations.LoadDoublewordUnsigned : Prop :=
  LoadRule .ldu 8 128 (fun e => e.ldu) (fun _ v => v) ∧ IllegalBelow .ldu 128 ∧
    Encodings.default.ldu = ⟨0b0000011#7, 0b111#3⟩

/-- LQ (R109), with the replaceable code `ENC_LQ`. -/
def Obligations.LoadQuadword : Prop :=
  LoadRule .lq 16 128 (fun e => e.lq) (fun _ v => v) ∧ IllegalBelow .lq 128 ∧
    Encodings.default.lq = ⟨0b0001111#7, 0b010#3⟩

/-- SB (R121). -/
def Obligations.StoreByte : Prop :=
  StoreRule .sb 1 32 (fun _ => ⟨0b0100011#7, 0b000#3⟩)

/-- SH (R122). -/
def Obligations.StoreHalfword : Prop :=
  StoreRule .sh 2 32 (fun _ => ⟨0b0100011#7, 0b001#3⟩)

/-- SW (R123). -/
def Obligations.StoreWord : Prop :=
  StoreRule .sw 4 32 (fun _ => ⟨0b0100011#7, 0b010#3⟩)

/-- SD (R124). -/
def Obligations.StoreDoubleword : Prop :=
  StoreRule .sd 8 64 (fun _ => ⟨0b0100011#7, 0b011#3⟩) ∧ IllegalBelow .sd 64

/-- SQ (R125), with the replaceable code `ENC_SQ`. -/
def Obligations.StoreQuadword : Prop :=
  StoreRule .sq 16 128 (fun e => e.sq) ∧ IllegalBelow .sq 128 ∧
    Encodings.default.sq = ⟨0b0100011#7, 0b100#3⟩

/-! ### Rules over all instructions -/

/-- LWU, LD, SD at `XLEN` = 32 and LDU, LQ, SQ at 32 and 64 raise `IllegalInstruction`, whatever the rest of the state
holds, and in a step of a program that has a meaning (R85) the fault carries the word that was fetched (R84, R141). -/
def Obligations.UnavailableInstructionIsIllegal : Prop :=
  (∀ (s : State) (r b : RegIdx) (imm : Imm12), s.xlen = .rv32 →
    ∀ i ∈ ([.lwu r b imm, .ld r b imm, .sd r b imm, .ldu r b imm, .lq r b imm, .sq r b imm] : List Instr),
      exec i s = .fault (.trap (.illegalInstruction (encode s.plat.enc i)) s.pcNat)) ∧
  (∀ (s : State) (r b : RegIdx) (imm : Imm12), s.xlen = .rv64 →
    ∀ i ∈ ([.ldu r b imm, .lq r b imm, .sq r b imm] : List Instr),
      exec i s = .fault (.trap (.illegalInstruction (encode s.plat.enc i)) s.pcNat)) ∧
  ∀ (s : State) (inst : InstWord) (i : Instr), s.fetch = .word inst → decode s.plat.enc inst = .ok i →
    s.ProgramHasMeaning → i.availableAt s.xlen = false → step s = .fault (.trap (.illegalInstruction inst) s.pcNat)

/-- Any load that is available raises `LoadAccessFault(addr)` when one of its bytes is not valid for reading, also
when its destination is `x0` (R142, R110). -/
def Obligations.LoadOfAnInvalidByteFaults : Prop :=
  ∀ (i : Instr) (s : State), i.isLoad = true → i.availableAt s.xlen = true →
    (∃ j < i.bytes, s.memValid (byteAddr (s.addrOf i) j) .read = false) →
      exec i s = .fault (.trap (.loadAccessFault (s.addrOf i).toNat) s.pcNat)

/-- Any store that is available, outside PROGRAM's range, raises `StoreAccessFault(addr)` when one of its bytes is not
valid for writing (R143). -/
def Obligations.StoreOfAnInvalidByteFaults : Prop :=
  ∀ (i : Instr) (s : State), i.isLoad = false → i.availableAt s.xlen = true →
    (∀ j < i.bytes, s.inProgram (byteAddr (s.addrOf i) j) = false) →
    (∃ j < i.bytes, s.memValid (byteAddr (s.addrOf i) j) .write = false) →
      exec i s = .fault (.trap (.storeAccessFault (s.addrOf i).toNat) s.pcNat)

/-- A store any of whose bytes falls inside PROGRAM's range is refused, whether or not its bytes are valid for
writing; a load from that range is an ordinary load (R60). That the range is taken modulo `2^XLEN` is the model's
inference (notes/assumptions/8.md). -/
def Obligations.StoreIntoProgramIsRefused : Prop :=
  (∀ (i : Instr) (s : State) (j d : Nat), i.isLoad = false → i.availableAt s.xlen = true →
    s.plat.program.wf s.xlen = true → j < i.bytes → d < 4 * s.plat.program.words.length →
    byteAddr (s.addrOf i) j = (s.plat.program.base + d) % s.space →
      exec i s = .refused (.storeToProgram (s.addrOf i).toNat s.pcNat)) ∧
  ∀ (i : Instr) (s : State) (p : Program), i.isLoad = true →
    exec i { s with plat := { s.plat with program := p } } =
      match exec i s with
      | .next t => .next { t with plat := { t.plat with program := p } }
      | .fault f => .fault f
      | .refused r => .refused r

/-- The model's choice where a valid byte has no value (R172, U3; notes/assumptions/4.md, 16.md): the load faults. -/
def Obligations.LoadOfAByteWithoutAValueFaults : Prop :=
  ∀ (i : Instr) (s : State), i.isLoad = true → i.availableAt s.xlen = true →
    (∀ j < i.bytes, s.memValid (byteAddr (s.addrOf i) j) .read = true) →
    (∃ j < i.bytes, s.mem.get? (byteAddr (s.addrOf i) j) = none) →
      exec i s = .fault (.unspecifiedByte (s.addrOf i).toNat s.pcNat)

/-- An instruction stops in no other way, and under no other condition, than its rules say (R140 to R145, R60): a fault
is `IllegalInstruction` of an unavailable instruction, `LoadAccessFault` of an available load with an unreadable byte,
`StoreAccessFault` of an available store outside PROGRAM's range with an unwritable byte, or the model's fault of an
available load all of whose bytes are readable and one of which has no value (R172, U3; notes/assumptions/4.md,
16.md); a refusal is that of an available store with a byte in PROGRAM's range. That availability is asked before
PROGRAM's range is the model's inference (12.md). -/
def Obligations.StopsOnlyAsTheRulesSay : Prop :=
  (∀ (i : Instr) (s : State) (f : Fault), exec i s = .fault f →
    (i.availableAt s.xlen = false ∧ f = .trap (.illegalInstruction (encode s.plat.enc i)) s.pcNat) ∨
    (i.availableAt s.xlen = true ∧ i.isLoad = true ∧
      (∃ j < i.bytes, s.memValid (byteAddr (s.addrOf i) j) .read = false) ∧
      f = .trap (.loadAccessFault (s.addrOf i).toNat) s.pcNat) ∨
    (i.availableAt s.xlen = true ∧ i.isLoad = true ∧
      (∀ j < i.bytes, s.memValid (byteAddr (s.addrOf i) j) .read = true) ∧
      (∃ j < i.bytes, s.mem.get? (byteAddr (s.addrOf i) j) = none) ∧
      f = .unspecifiedByte (s.addrOf i).toNat s.pcNat) ∨
    (i.availableAt s.xlen = true ∧ i.isLoad = false ∧
      (∀ j < i.bytes, s.inProgram (byteAddr (s.addrOf i) j) = false) ∧
      (∃ j < i.bytes, s.memValid (byteAddr (s.addrOf i) j) .write = false) ∧
      f = .trap (.storeAccessFault (s.addrOf i).toNat) s.pcNat)) ∧
  ∀ (i : Instr) (s : State) (r : Refusal), exec i s = .refused r →
    i.availableAt s.xlen = true ∧ i.isLoad = false ∧
      (∃ j < i.bytes, s.inProgram (byteAddr (s.addrOf i) j) = true) ∧
      r = .storeToProgram (s.addrOf i).toNat s.pcNat

/-- Alignment is never required (R44, R144): every instruction that is available completes when its bytes are valid
(a load's have values, a store's are outside PROGRAM's range), whatever its address. -/
def Obligations.EveryAccessCompletesWhateverItsAlignment : Prop :=
  (∀ (i : Instr) (s : State) (b : Nat → Byte), i.isLoad = true → i.availableAt s.xlen = true →
    (∀ j < i.bytes, s.memValid (byteAddr (s.addrOf i) j) .read = true) → s.HoldsBytes (s.addrOf i) i.bytes b →
      ∃ t, exec i s = .next t ∧ LoadLeaves s t i.data (i.loadedNat s.xlen.bits (leSum b i.bytes))) ∧
  ∀ (i : Instr) (s : State), i.isLoad = false → i.availableAt s.xlen = true →
    (∀ j < i.bytes, s.inProgram (byteAddr (s.addrOf i) j) = false) →
    (∀ j < i.bytes, s.memValid (byteAddr (s.addrOf i) j) .write = true) →
      ∃ t, exec i s = .next t ∧ StoreLeaves s t (s.addrOf i) i.bytes (s.regNat i.data)

/-- The frame of all fourteen (R23, R42): a register that an instruction does not write, a byte outside a store's
bytes, and all of memory for a load, are as before. -/
def Obligations.InstructionWritesOnlyWhatItsRuleSays : Prop :=
  ∀ (i : Instr) (s t : State), exec i s = .next t →
    (∀ r, r ∉ i.writes → t.regNat r = s.regNat r) ∧
    (i.isLoad = true → ∀ a, t.mem.get? a = s.mem.get? a) ∧
    (i.isLoad = false → ∀ a, a ∉ accessAddrs (s.addrOf i) i.bytes → t.mem.get? a = s.mem.get? a)

/-- A register that an instruction does not read has no bearing on it (R23): changing it beforehand changes that
register afterwards, unless the instruction writes it, and nothing else. -/
def Obligations.RegistersNotReadDoNotMatter : Prop :=
  ∀ (i : Instr) (s : State) (r : RegIdx) (v : BitVec s.xlen.bits), r ∉ i.reads →
    (∀ f, exec i s = .fault f → exec i (s.writeReg r v) = .fault f) ∧
    (∀ q, exec i s = .refused q → exec i (s.writeReg r v) = .refused q) ∧
    ∀ t, exec i s = .next t → ∃ u, exec i (s.writeReg r v) = .next u ∧ u.mem = t.mem ∧ u.pcNat = t.pcNat ∧
      ∀ q, u.regNat q = if q = r ∧ r ∉ i.writes then (s.writeReg r v).regNat q else t.regNat q

/-- "A load reads exactly the `n` bytes and no others; a store writes exactly those `n` bytes and no others. A store
does not read memory." (R42), with the number of bytes of each of the fourteen, in the order of R1. -/
def Obligations.AccessesTouchExactlyTheirBytes : Prop :=
  (∀ (r b : RegIdx) (imm : Imm12),
    ([.lb r b imm, .lbu r b imm, .lh r b imm, .lhu r b imm, .lw r b imm, .lwu r b imm, .ld r b imm, .ldu r b imm,
      .lq r b imm, .sb r b imm, .sh r b imm, .sw r b imm, .sd r b imm, .sq r b imm] : List Instr).map Instr.bytes =
      [1, 1, 2, 2, 4, 4, 8, 8, 16, 1, 2, 4, 8, 16]) ∧
  (∀ (i : Instr) (s : State) (m : Memory), i.isLoad = true →
    (∀ j < i.bytes, m.get? (byteAddr (s.addrOf i) j) = s.mem.get? (byteAddr (s.addrOf i) j)) →
      exec i (s.withMem m) = withMemory m (exec i s)) ∧
  ∀ (i : Instr) (s : State), i.isLoad = false →
    (∃ (t : State) (ws : List (Nat × Byte)), ws.map Prod.fst = accessAddrs (s.addrOf i) i.bytes ∧
      ∀ m, exec i (s.withMem m) = .next (t.withMem (m.setAll ws))) ∨
    (∃ f, ∀ m, exec i (s.withMem m) = .fault f) ∨
    ∃ r, ∀ m, exec i (s.withMem m) = .refused r

/-- A load with `rd = 0` is performed in full and its value discarded (R110): it completes and faults exactly as with
any other destination, raises `LoadAccessFault` on an invalid byte, and when it completes only the pc has changed, to
the next instruction, and `x0` remains 0. -/
def Obligations.LoadToZeroRegisterIsPerformedAndDiscarded : Prop :=
  ∀ (i : Instr) (s : State), i.isLoad = true → i.data = 0 →
    (∀ t, exec i s = .next t → t = s.advancePc ∧ t.regNat 0 = 0 ∧ t.pcNat = (s.pcNat + 4) % s.space) ∧
    (i.availableAt s.xlen = true → (∃ j < i.bytes, s.memValid (byteAddr (s.addrOf i) j) .read = false) →
      exec i s = .fault (.trap (.loadAccessFault (s.addrOf i).toNat) s.pcNat)) ∧
    ∀ r, i.availableAt s.xlen = true →
      ((∃ t, exec (i.withData r) s = .next t) ↔ ∃ t, exec i s = .next t) ∧
      ∀ f, exec (i.withData r) s = .fault f ↔ exec i s = .fault f

/-- After a store, a load of bytes inside the stored range gives those bytes of the stored register, extended as the
load says, whatever the two sizes (R41, R62). -/
def Obligations.LoadAfterStoreReturnsTheStoredBytes : Prop :=
  ∀ (st ld : Instr) (s t : State) (j : Nat), st.isLoad = false → ld.isLoad = true →
    exec st s = .next t → j + ld.bytes ≤ st.bytes → ld.availableAt s.xlen = true →
    (t.addrOf ld).toNat = ((s.addrOf st).toNat + j) % s.space →
    (∀ k < ld.bytes, s.memValid (((s.addrOf st).toNat + j + k) % s.space) .read = true) →
      ∃ u, exec ld t = .next u ∧
        u.regNat ld.data = if ld.data = 0 then 0
          else ld.loadedNat s.xlen.bits (s.regNat st.data / 256 ^ j % 256 ^ ld.bytes)

/-! ### The assembler -/

/-- The source's example lines, as printed, assemble to the words of 95_test_vectors.md section 1 (R88, R89). -/
def Obligations.SourceLinesAssemble : Prop :=
  assemble Encodings.default "LB     x4,1234(x9)    # x4 = Mem[x9+1234]".toList = .ok 0x4D248203#32 ∧
  assemble Encodings.default "LQ     x4,1234(x9)    # x4 = Mem[x9+1234]".toList = .ok 0x4D24A20F#32 ∧
  assemble Encodings.default "SB     x4,1234(x9)    # Mem[x9+1234] = x4".toList = .ok 0x4C448923#32 ∧
  assemble Encodings.default "SW     x10,-4(x2)".toList = .ok 0xFEA12E23#32

/-- Assembly to fields (R89, R77): a line with registers `x0` .. `x31` and an offset in -2048 .. 2047 has a word, which
decodes to the line's instruction with the line's registers and offset; an offset outside that range has none. -/
def Obligations.AssembledLineDecodesToItself : Prop :=
  (∀ (e : Encodings) (l : AsmLine), e.wf = true → l.data ≤ 31 → l.base ≤ 31 → -2048 ≤ l.offset → l.offset ≤ 2047 →
    ∃ w i, l.word e = .ok w ∧ decode e w = .ok i ∧ i.op = l.op ∧ i.data.toNat = l.data ∧ i.base.toNat = l.base ∧
      i.imm.toInt = l.offset) ∧
  ∀ (e : Encodings) (l : AsmLine), l.data ≤ 31 → l.base ≤ 31 → (l.offset < -2048 ∨ 2047 < l.offset) →
    l.word e = .error .offsetRange
end

