-- ==== Sys2Proof/Laws/Decode.lean ====
section
/-! SUPPORT. What the fields of an encoded word read, its masked value, and the row the decoder finds. -/
namespace Sys2Proof

/-! ### Words as numbers -/

/-- Concatenation as a number (R8). -/
theorem append_toNat {m n : Nat} (x : BitVec m) (y : BitVec n) : (x ++ y).toNat = 2 ^ n * x.toNat + y.toNat := by
  rw [BitVec.toNat_append, ← Nat.shiftLeft_add_eq_or_of_lt y.isLt, Nat.shiftLeft_eq, Nat.mul_comm]

/-- The I-type word as a number: each field at its place (R73). -/
theorem encodeI_toNat (c : Code) (rd rs1 : RegIdx) (imm : Imm12) : (encodeI c rd rs1 imm).toNat =
    c.opcode.toNat + 2 ^ 7 * rd.toNat + 2 ^ 12 * c.funct3.toNat + 2 ^ 15 * rs1.toNat + 2 ^ 20 * imm.toNat := by
  simp only [encodeI, append_toNat]
  omega

/-- The same for the S-type, whose immediate stands in two pieces. -/
theorem encodeS_toNat (c : Code) (rs2 rs1 : RegIdx) (imm : Imm12) : (encodeS c rs2 rs1 imm).toNat =
    c.opcode.toNat + 2 ^ 7 * (imm.toNat % 2 ^ 5) + 2 ^ 12 * c.funct3.toNat + 2 ^ 15 * rs1.toNat + 2 ^ 20 * rs2.toNat +
      2 ^ 25 * (imm.toNat / 2 ^ 5) := by
  have h := imm.isLt
  simp only [encodeS, append_toNat, BitVec.extractLsb'_toNat, Nat.shiftRight_eq_div_pow]
  omega

/-- A slice as a number (R8). -/
theorem extractLsb'_toNat_div (w : InstWord) (s n : Nat) : (w.extractLsb' s n).toNat = w.toNat / 2 ^ s % 2 ^ n := by
  rw [BitVec.extractLsb'_toNat, Nat.shiftRight_eq_div_pow]

/-- A masked word is the `match` of its own two fixed fields. -/
theorem masked_eq (w : InstWord) : w &&& tableMask = Code.matchWord ⟨w.extractLsb' 0 7, w.extractLsb' 12 3⟩ := by
  apply BitVec.eq_of_getLsbD_eq
  intro k hk
  rw [Code.matchWord, tableMask, BitVec.getLsbD_append, BitVec.getLsbD_append, BitVec.getLsbD_append]
  interval_cases k <;> simp

/-- A row's `match` as a number. -/
theorem matchWord_toNat (c : Code) : c.matchWord.toNat = c.opcode.toNat + 2 ^ 12 * c.funct3.toNat := by
  simp only [Code.matchWord, append_toNat, BitVec.toNat_ofNat]
  omega

/-- Two rows with one `match` have one code. -/
theorem matchWord_inj {c d : Code} (h : c.matchWord = d.matchWord) : c = d := by
  have hn := congrArg BitVec.toNat h
  rw [matchWord_toNat, matchWord_toNat] at hn
  obtain ⟨a, b⟩ := c
  obtain ⟨x, y⟩ := d
  have ha := a.isLt
  have hx := x.isLt
  simp only at hn
  congr 1 <;> apply BitVec.eq_of_toNat_eq <;> omega

/-! ### The fields of the two formats (R72 to R76) -/

/-- The fields of an I-type word are what was put in. -/
theorem encodeI_fields (c : Code) (rd rs1 : RegIdx) (imm : Imm12) :
    (encodeI c rd rs1 imm).extractLsb' 0 7 = c.opcode ∧ (encodeI c rd rs1 imm).extractLsb' 12 3 = c.funct3 ∧
    fieldRd (encodeI c rd rs1 imm) = rd ∧ fieldRs1 (encodeI c rd rs1 imm) = rs1 ∧
    fieldImmI (encodeI c rd rs1 imm) = imm := by
  have h0 := c.opcode.isLt
  have h1 := rd.isLt
  have h2 := c.funct3.isLt
  have h3 := rs1.isLt
  have h4 := imm.isLt
  refine ⟨?_, ?_, ?_, ?_, ?_⟩ <;> apply BitVec.eq_of_toNat_eq <;>
    simp only [fieldRd, fieldRs1, fieldImmI, extractLsb'_toNat_div, encodeI_toNat] <;> omega

/-- A digit of a number written in mixed radix. -/
theorem digit {N x y z s n : Nat} (h : N = x + 2 ^ s * (y + 2 ^ n * z)) (hx : x < 2 ^ s) (hy : y < 2 ^ n) :
    N / 2 ^ s % 2 ^ n = y := by
  rw [h, Nat.add_mul_div_left _ _ (Nat.two_pow_pos s), Nat.div_eq_of_lt hx, Nat.zero_add, Nat.add_mul_mod_self_left,
    Nat.mod_eq_of_lt hy]

/-- The fields of an S-type word are what was put in. -/
theorem encodeS_fields (c : Code) (rs2 rs1 : RegIdx) (imm : Imm12) :
    (encodeS c rs2 rs1 imm).extractLsb' 0 7 = c.opcode ∧ (encodeS c rs2 rs1 imm).extractLsb' 12 3 = c.funct3 ∧
    fieldRs2 (encodeS c rs2 rs1 imm) = rs2 ∧ fieldRs1 (encodeS c rs2 rs1 imm) = rs1 ∧
    fieldImmS (encodeS c rs2 rs1 imm) = imm := by
  have h0 := c.opcode.isLt
  have h1 := rs2.isLt
  have h2 := c.funct3.isLt
  have h3 := rs1.isLt
  have h4 := imm.isLt
  have hhi : imm.toNat / 2 ^ 5 < 2 ^ 7 := by omega
  have hlo : imm.toNat % 2 ^ 5 < 2 ^ 5 := by omega
  have himm : imm.toNat = imm.toNat % 2 ^ 5 + 2 ^ 5 * (imm.toNat / 2 ^ 5) := by omega
  have e := encodeS_toNat c rs2 rs1 imm
  generalize imm.toNat / 2 ^ 5 = hi at *
  generalize imm.toNat % 2 ^ 5 = lo at *
  have d25 := digit (N := (encodeS c rs2 rs1 imm).toNat) (s := 25) (n := 7) (y := hi) (z := 0)
    (x := c.opcode.toNat + 2 ^ 7 * lo + 2 ^ 12 * c.funct3.toNat + 2 ^ 15 * rs1.toNat + 2 ^ 20 * rs2.toNat)
    (by omega) (by omega) hhi
  have d20 := digit (N := (encodeS c rs2 rs1 imm).toNat) (s := 20) (n := 5) (y := rs2.toNat) (z := hi)
    (x := c.opcode.toNat + 2 ^ 7 * lo + 2 ^ 12 * c.funct3.toNat + 2 ^ 15 * rs1.toNat)
    (by omega) (by omega) h1
  have d15 := digit (N := (encodeS c rs2 rs1 imm).toNat) (s := 15) (n := 5) (y := rs1.toNat)
    (z := rs2.toNat + 2 ^ 5 * hi) (x := c.opcode.toNat + 2 ^ 7 * lo + 2 ^ 12 * c.funct3.toNat)
    (by omega) (by omega) h3
  have d12 := digit (N := (encodeS c rs2 rs1 imm).toNat) (s := 12) (n := 3) (y := c.funct3.toNat)
    (z := rs1.toNat + 2 ^ 5 * (rs2.toNat + 2 ^ 5 * hi)) (x := c.opcode.toNat + 2 ^ 7 * lo)
    (by omega) (by omega) h2
  have d7 := digit (N := (encodeS c rs2 rs1 imm).toNat) (s := 7) (n := 5) (y := lo)
    (z := c.funct3.toNat + 2 ^ 3 * (rs1.toNat + 2 ^ 5 * (rs2.toNat + 2 ^ 5 * hi))) (x := c.opcode.toNat)
    (by omega) h0 hlo
  have d0 := digit (N := (encodeS c rs2 rs1 imm).toNat) (s := 0) (n := 7) (y := c.opcode.toNat)
    (z := lo + 2 ^ 5 * (c.funct3.toNat + 2 ^ 3 * (rs1.toNat + 2 ^ 5 * (rs2.toNat + 2 ^ 5 * hi)))) (x := 0)
    (by omega) (by omega) h0
  refine ⟨?_, ?_, ?_, ?_, ?_⟩ <;> apply BitVec.eq_of_toNat_eq <;>
    simp only [fieldRs2, fieldRs1, fieldImmS, append_toNat, extractLsb'_toNat_div, d0, d7, d12, d15, d20, d25]
  omega

/-! ### The rows (R81) -/

/-- Two rows of an admissible table have different codes. -/
theorem code_inj {e : Encodings} (he : e.wf = true) {op op' : Op} (h : op.code e = op'.code e) : op = op' := by
  simp only [Encodings.wf, Code.isFree, Bool.and_eq_true, Bool.not_eq_true', bne_iff_ne, ne_eq] at he
  obtain ⟨⟨⟨⟨⟨⟨a, -⟩, b, -⟩, c, -⟩, d⟩, f⟩, g⟩ := he
  cases op <;> cases op' <;> first
    | rfl
    | (simp only [Op.code] at h
       first
        | exact absurd h (by decide)
        | exact absurd h d | exact absurd h f | exact absurd h g
        | exact absurd h.symm d | exact absurd h.symm f | exact absurd h.symm g
        | (rw [h] at a; exact absurd a (by decide))
        | (rw [h] at b; exact absurd b (by decide))
        | (rw [h] at c; exact absurd c (by decide))
        | (rw [← h] at a; exact absurd a (by decide))
        | (rw [← h] at b; exact absurd b (by decide))
        | (rw [← h] at c; exact absurd c (by decide)))

/-- The decoder finds the row of a word whose fixed fields are the row's. -/
theorem findRow_of_code {e : Encodings} (he : e.wf = true) {op : Op} {w : InstWord}
    (h0 : w.extractLsb' 0 7 = (op.code e).opcode) (h1 : w.extractLsb' 12 3 = (op.code e).funct3) :
    findRow e w = some ⟨op, op.code e⟩ := by
  have hp : ((fun r : Row => r.code.matchWord == w &&& tableMask) ∘ fun op' : Op => (⟨op', op'.code e⟩ : Row)) =
      fun op' => decide (op' = op) := by
    funext op'
    rw [Function.comp, masked_eq, h0, h1]
    by_cases h : op' = op
    · simp [h]
    · have : (op'.code e).matchWord ≠ (op.code e).matchWord := fun hh => h (code_inj he (matchWord_inj hh))
      simpa [h] using this
  rw [findRow, opcodeTable, List.find?_map, hp]
  cases op <;> rfl

/-- A row that the decoder finds has the word's fixed fields. -/
theorem findRow_eq_some {e : Encodings} {w : InstWord} {r : Row} (h : findRow e w = some r) :
    r = ⟨r.op, r.op.code e⟩ ∧ r.code.matchWord = w &&& tableMask := by
  have h1 := List.mem_of_find?_eq_some h
  have h2 := List.find?_some h
  obtain ⟨op, -, rfl⟩ := List.mem_map.1 h1
  exact ⟨rfl, by simpa using h2⟩

/-- The instruction of a row belongs to the row. -/
theorem op_instr_op (op : Op) (d b : RegIdx) (imm : Imm12) : (op.instr d b imm).op = op := by
  cases op <;> rfl

/-- Encoding by the format of the row (R89). -/
theorem encode_eq (e : Encodings) (op : Op) (d b : RegIdx) (imm : Imm12) : encode e (op.instr d b imm) =
    match op.format with
    | .I => encodeI (op.code e) d b imm
    | .S => encodeS (op.code e) d b imm := by
  cases op <;> rfl

end Sys2Proof
end

