-- ==== Sys2Proof/Laws/Memory.lean ====
section
/-! SUPPORT. The laws of memory: a read after a write, the canonical form and that every operation keeps it, and that
two memories in canonical form with the same bytes are the same list. -/
namespace Sys2Proof.Machine

/-! ### One byte -/

/-- A read after a write: the byte written at its address, every other byte as before. -/
theorem Memory.get?_set (m : Memory) (a k : Nat) (v : Byte) :
    Memory.get? (m.set a v) k = if k = a then some v else m.get? k := by
  induction m with
  | nil => simp [Memory.set, Memory.get?]
  | cons c rest ih =>
    obtain ⟨b, w⟩ := c
    by_cases h1 : a < b
    · simp [Memory.set, Memory.get?, h1]
    · by_cases h2 : a = b
      · subst h2
        by_cases h3 : k = a <;> simp [Memory.set, Memory.get?, h3]
      · by_cases h3 : k = b
        · have : k ≠ a := fun h => h2 (h.symm.trans h3)
          simp [Memory.set, Memory.get?, h1, h2, h3, Ne.symm h2]
        · simp [Memory.set, Memory.get?, h1, h2, h3, ih]

/-- Writing a byte twice is writing it once, as data. -/
theorem Memory.set_set (m : Memory) (a : Nat) (v w : Byte) : Memory.set (m.set a v) a w = m.set a w := by
  induction m with
  | nil => simp [Memory.set]
  | cons c rest ih =>
    obtain ⟨b, u⟩ := c
    by_cases h1 : a < b
    · simp [Memory.set, h1]
    · by_cases h2 : a = b
      · simp [Memory.set, h2]
      · simp [Memory.set, h1, h2, ih]

/-! ### The canonical form -/

/-- Rising addresses: the head's lies below every other. -/
theorem cellsRising_cons (c : Host.Cell) (rest : List Host.Cell) :
    cellsRising (c :: rest) = true ↔ (∀ d ∈ rest, c.1 < d.1) ∧ cellsRising rest = true := by
  induction rest generalizing c with
  | nil => simp [cellsRising]
  | cons d rest ih =>
    simp only [cellsRising, Bool.and_eq_true, decide_eq_true_eq, List.mem_cons, forall_eq_or_imp]
    constructor
    · rintro ⟨hcd, hr⟩
      exact ⟨⟨hcd, fun x hx => hcd.trans (((ih d).1 hr).1 x hx)⟩, hr⟩
    · rintro ⟨⟨hcd, -⟩, hr⟩
      exact ⟨hcd, hr⟩

/-- The addresses of a memory after a write. -/
theorem Memory.mem_set {m : Memory} {a : Nat} {v : Byte} {c : Host.Cell} (h : c ∈ m.set a v) :
    c.1 = a ∨ c ∈ m := by
  induction m with
  | nil => left; simp [Memory.set] at h; simp [h]
  | cons d rest ih =>
    obtain ⟨b, u⟩ := d
    by_cases h1 : a < b
    · simp only [Memory.set, h1, if_true, List.mem_cons] at h ⊢
      rcases h with h | h
      · exact .inl (by rw [h])
      · exact .inr h
    · by_cases h2 : a = b
      · simp only [Memory.set, h2, if_true, if_false, lt_irrefl, List.mem_cons] at h ⊢
        rcases h with h | h
        · exact .inl (by rw [h])
        · exact .inr (.inr h)
      · simp only [Memory.set, h1, h2, if_false, List.mem_cons] at h ⊢
        rcases h with h | h
        · exact .inr (.inl h)
        · exact (ih h).imp_right .inr

/-- A write keeps the canonical form. -/
theorem Memory.wf_set (m : Memory) (a : Nat) (v : Byte) (h : m.wf = true) : (m.set a v).wf = true := by
  induction m with
  | nil => rfl
  | cons c rest ih =>
    obtain ⟨b, u⟩ := c
    have hc := (cellsRising_cons _ _).1 h
    by_cases h1 : a < b
    · simp only [Memory.set, h1, if_true]
      refine (cellsRising_cons _ _).2 ⟨?_, h⟩
      intro d hd
      rcases List.mem_cons.1 hd with rfl | hd
      · exact h1
      · exact h1.trans (hc.1 d hd)
    · by_cases h2 : a = b
      · simp only [Memory.set, h2, if_true, if_false, lt_irrefl]
        exact (cellsRising_cons _ _).2 hc
      · simp only [Memory.set, h1, h2, if_false]
        refine (cellsRising_cons _ _).2 ⟨?_, ih hc.2⟩
        intro d hd
        rcases Memory.mem_set hd with hd | hd
        · simp only [hd]; omega
        · exact hc.1 d hd

/-- An address below every listed one has no value. -/
theorem Memory.get?_eq_none_of_lt {m : Memory} {a : Nat} (h : ∀ c ∈ m, a < c.1) : m.get? a = none := by
  induction m with
  | nil => rfl
  | cons c rest ih =>
    obtain ⟨b, u⟩ := c
    have hb : a < b := h (b, u) (List.mem_cons_self ..)
    simp [Memory.get?, Nat.ne_of_lt hb, ih fun d hd => h d (List.mem_cons_of_mem _ hd)]

/-- Equal bytes are equal data: two memories in canonical form that read the same everywhere are equal. -/
theorem Memory.eq_of_get?_eq {m m' : Memory} (h : m.wf = true) (h' : m'.wf = true)
    (heq : ∀ a, m.get? a = m'.get? a) : m = m' := by
  induction m generalizing m' with
  | nil =>
    cases m' with
    | nil => rfl
    | cons d rest' => have := heq d.1; simp [Memory.get?] at this
  | cons c rest ih =>
    obtain ⟨b, u⟩ := c
    cases m' with
    | nil => have := heq b; simp [Memory.get?] at this
    | cons d rest' =>
      obtain ⟨b', u'⟩ := d
      have hc := (cellsRising_cons _ _).1 h
      have hc' := (cellsRising_cons _ _).1 h'
      have hbb : b = b' := by
        rcases Nat.lt_trichotomy b b' with hlt | heq' | hgt
        · have e := heq b
          rw [Memory.get?_eq_none_of_lt (m := (b', u') :: rest') fun x hx => by
            rcases List.mem_cons.1 hx with rfl | hx
            · exact hlt
            · exact hlt.trans (hc'.1 x hx)] at e
          simp [Memory.get?] at e
        · exact heq'
        · have e := heq b'
          rw [Memory.get?_eq_none_of_lt (m := (b, u) :: rest) fun x hx => by
            rcases List.mem_cons.1 hx with rfl | hx
            · exact hgt
            · exact hgt.trans (hc.1 x hx)] at e
          simp [Memory.get?] at e
      subst hbb
      have huu : u = u' := by have e := heq b; simpa [Memory.get?] using e
      subst huu
      refine congrArg _ (ih hc.2 hc'.2 fun a => ?_)
      by_cases ha : a = b
      · subst ha
        rw [Memory.get?_eq_none_of_lt hc.1, Memory.get?_eq_none_of_lt hc'.1]
      · have e := heq a
        simpa [Memory.get?, ha] using e

/-! ### Several bytes -/

/-- The bytes written by a list of writes keep the canonical form. -/
theorem Memory.wf_setAll (ws : List (Nat × Byte)) (m : Memory) (h : m.wf = true) : (m.setAll ws).wf = true := by
  induction ws generalizing m with
  | nil => exact h
  | cons c rest ih => exact ih _ (Memory.wf_set _ _ _ h)

/-- Two lists of writes, one after the other. -/
theorem Memory.setAll_append (m : Memory) (xs ys : List (Nat × Byte)) :
    m.setAll (xs ++ ys) = Memory.setAll (m.setAll xs) ys := by
  induction xs generalizing m with
  | nil => rfl
  | cons c rest ih => exact ih _

/-- Events performed one after another are their writes, one after another. -/
theorem Memory.applyEvents_eq (m : Memory) (es : List (List (Nat × Byte))) : m.applyEvents es = m.setAll es.flatten := by
  induction es generalizing m with
  | nil => rfl
  | cons e rest ih => rw [Memory.applyEvents, ih, List.flatten_cons, Memory.setAll_append]

/-- Events keep the canonical form. -/
theorem Memory.wf_applyEvents (m : Memory) (es : List (List (Nat × Byte))) (h : m.wf = true) :
    (m.applyEvents es).wf = true := by
  rw [Memory.applyEvents_eq]; exact Memory.wf_setAll _ _ h

/-- The memory after reset is in canonical form, as far as `MEM_INIT` is. -/
theorem Memory.wf_resetOf (p : Params) (h : cellsRising p.memInit = true) : (State.resetOf p).mem.wf = true := h

/-- A byte that no write of a list names is as before. -/
theorem Memory.get?_setAll_of_notMem (ws : List (Nat × Byte)) (m : Memory) (a : Nat) (h : a ∉ ws.map Prod.fst) :
    Memory.get? (m.setAll ws) a = m.get? a := by
  induction ws generalizing m with
  | nil => rfl
  | cons c rest ih =>
    obtain ⟨b, v⟩ := c
    simp only [List.map_cons, List.mem_cons, not_or] at h
    rw [Memory.setAll, ih _ h.2, Memory.get?_set, if_neg h.1]

/-- A byte that exactly one write of a list names is what that write says. -/
theorem Memory.get?_setAll_of_mem {ws : List (Nat × Byte)} (m : Memory) {a : Nat} {v : Byte}
    (hn : (ws.map Prod.fst).Nodup) (h : (a, v) ∈ ws) : Memory.get? (m.setAll ws) a = some v := by
  induction ws generalizing m with
  | nil => simp at h
  | cons c rest ih =>
    obtain ⟨b, w⟩ := c
    simp only [List.map_cons, List.nodup_cons] at hn
    rcases List.mem_cons.1 h with h | h
    · cases h
      rw [Memory.setAll, Memory.get?_setAll_of_notMem _ _ _ hn.1, Memory.get?_set, if_pos rfl]
    · exact ih _ hn.2 h

/-- The writes of a list, one byte a time, keep every listed address inside the address space. -/
theorem cellsInSpace_setAll (x : Xlen) (ws : List (Nat × Byte)) (m : Memory) (h : cellsInSpace x m = true)
    (hw : ∀ c ∈ ws, c.1 < 2 ^ x.bits) : cellsInSpace x (m.setAll ws) = true := by
  induction ws generalizing m with
  | nil => exact h
  | cons c rest ih =>
    refine ih _ ?_ fun d hd => hw d (List.mem_cons_of_mem _ hd)
    rw [cellsInSpace, List.all_eq_true] at h ⊢
    intro d hd
    rcases Memory.mem_set hd with e | hd
    · simp only [e, decide_eq_true_eq]; exact hw c (List.mem_cons_self ..)
    · exact h d hd

/-- Reading a list of addresses gives a value exactly when each address has one. -/
theorem Memory.getAll_eq_some {m : Memory} {as : List Nat} {bs : List Byte} :
    m.getAll as = some bs ↔ as.map m.get? = bs.map some := by
  induction as generalizing bs with
  | nil => cases bs <;> simp [Memory.getAll]
  | cons a rest ih =>
    cases hb : m.get? a with
    | none => cases bs <;> simp [Memory.getAll, hb]
    | some b =>
      cases hr : m.getAll rest with
      | none =>
        simp only [Memory.getAll, hb, hr, List.map_cons, reduceCtorEq, false_iff]
        cases bs with
        | nil => simp
        | cons c cs => 
          simp only [List.map_cons, List.cons.injEq, not_and]
          intro _ h
          have := ih.2 h
          rw [hr] at this; cases this
      | some cs =>
        cases bs with
        | nil => simp [Memory.getAll, hb, hr]
        | cons c ds => simp [Memory.getAll, hb, hr, ← ih]

/-- Reading a list of addresses gives no value exactly when some address has none. -/
theorem Memory.getAll_eq_none {m : Memory} {as : List Nat} : m.getAll as = none ↔ ∃ a ∈ as, m.get? a = none := by
  induction as with
  | nil => simp [Memory.getAll]
  | cons a rest ih =>
    cases hb : m.get? a with
    | none => simp [Memory.getAll, hb]
    | some b =>
      cases hr : m.getAll rest with
      | none => simpa [Memory.getAll, hb, hr] using ih.1 hr
      | some cs =>
        have : ¬ ∃ x ∈ rest, m.get? x = none := fun h => by have := ih.2 h; rw [hr] at this; cases this
        simpa [Memory.getAll, hb, hr] using this

/-- Reading depends on the bytes read only. -/
theorem Memory.getAll_congr {m m' : Memory} {as : List Nat} (h : ∀ a ∈ as, m'.get? a = m.get? a) :
    m'.getAll as = m.getAll as := by
  induction as with
  | nil => rfl
  | cons a rest ih =>
    simp [Memory.getAll, h a (List.mem_cons_self ..), ih fun x hx => h x (List.mem_cons_of_mem _ hx)]

end Sys2Proof.Machine
end

