-- ==== Sys2Proof/Laws/State.lean ====
section
/-! SUPPORT. One lemma for each field under each update of the state, and what a register reads after a write. -/
namespace Sys2Proof.Machine

variable (s : State)

@[simp] theorem writeReg_xlen (r : RegIdx) (v) : (s.writeReg r v).xlen = s.xlen := rfl
@[simp] theorem writeReg_plat (r : RegIdx) (v) : (s.writeReg r v).plat = s.plat := rfl
@[simp] theorem writeReg_pc (r : RegIdx) (v) : (s.writeReg r v).pc = s.pc := rfl
@[simp] theorem writeReg_mem (r : RegIdx) (v) : (s.writeReg r v).mem = s.mem := rfl

@[simp] theorem advancePc_xlen : s.advancePc.xlen = s.xlen := rfl
@[simp] theorem advancePc_plat : s.advancePc.plat = s.plat := rfl
@[simp] theorem advancePc_pc : s.advancePc.pc = (s.pc + 4 : BitVec s.xlen.bits) := rfl
@[simp] theorem advancePc_regs : s.advancePc.regs = s.regs := rfl
@[simp] theorem advancePc_mem : s.advancePc.mem = s.mem := rfl

@[simp] theorem writeBytes_xlen (addr n v) : (s.writeBytes addr n v).xlen = s.xlen := rfl
@[simp] theorem writeBytes_plat (addr n v) : (s.writeBytes addr n v).plat = s.plat := rfl
@[simp] theorem writeBytes_pc (addr n v) : (s.writeBytes addr n v).pc = s.pc := rfl
@[simp] theorem writeBytes_regs (addr n v) : (s.writeBytes addr n v).regs = s.regs := rfl
@[simp] theorem writeBytes_mem (addr n v) :
    (s.writeBytes addr n v).mem = s.mem.setAll (storeBytes addr n v) := rfl

@[simp] theorem withMem_xlen (m : Memory) : (s.withMem m).xlen = s.xlen := rfl
@[simp] theorem withMem_plat (m : Memory) : (s.withMem m).plat = s.plat := rfl
@[simp] theorem withMem_pc (m : Memory) : (s.withMem m).pc = s.pc := rfl
@[simp] theorem withMem_regs (m : Memory) : (s.withMem m).regs = s.regs := rfl
@[simp] theorem withMem_mem (m : Memory) : (s.withMem m).mem = m := rfl

variable (p : Params)

@[simp] theorem resetOf_xlen : (State.resetOf p).xlen = p.xlen := rfl
@[simp] theorem resetOf_plat : (State.resetOf p).plat = p.plat := rfl
@[simp] theorem resetOf_pc : (State.resetOf p).pc = p.resetPc := rfl
@[simp] theorem resetOf_mem : (State.resetOf p).mem = p.memInit := rfl

/-! ### Registers -/

/-- `x0` is hard-wired to zero (R22). -/
theorem readReg_zero : s.readReg 0 = 0 := rfl

/-- A write of `x0` is discarded (R22). -/
theorem writeReg_zero (v) : s.writeReg 0 v = s := rfl

/-- Two different registers other than `x0` have different places. -/
theorem regSlot_ne {r q : RegIdx} (hr : r ≠ 0) (hq : q ≠ 0) (h : q ≠ r) : r.toNat - 1 ≠ q.toNat - 1 := by
  have h1 : r.toNat ≠ 0 := fun c => hr (BitVec.eq_of_toNat_eq c)
  have h2 : q.toNat ≠ 0 := fun c => hq (BitVec.eq_of_toNat_eq c)
  have h3 : q.toNat ≠ r.toNat := fun c => h (BitVec.eq_of_toNat_eq c)
  omega

/-- What a register reads after a write, as a number (R11). -/
theorem regNat_writeReg (r q : RegIdx) (v : BitVec s.xlen.bits) :
    (s.writeReg r v).regNat q = if q = 0 then 0 else if q = r then v.toNat else s.regNat q := by
  by_cases hq : q = 0
  · subst hq; rfl
  by_cases hr : r = 0
  · subst hr
    simp only [hq, if_false]
    rfl
  by_cases h : q = r
  · subst h
    simp only [State.regNat, State.readReg, State.writeReg, hq, Vector.getElem_set_self, ↓reduceIte]
  · simp only [State.regNat, State.readReg, State.writeReg, hq, hr, h, if_false]
    exact congrArg _ (Vector.getElem_set_ne _ _ (regSlot_ne hr hq h))

/-- `x0` reads 0 (R21). -/
@[simp] theorem regNat_zero : s.regNat 0#5 = 0 := rfl

/-! A read depends on the register file only. -/

@[simp] theorem regNat_advancePc (q : RegIdx) : s.advancePc.regNat q = s.regNat q := rfl
@[simp] theorem regNat_writeBytes (addr n v) (q : RegIdx) : (s.writeBytes addr n v).regNat q = s.regNat q := rfl
@[simp] theorem regNat_withMem (m : Memory) (q : RegIdx) : (s.withMem m).regNat q = s.regNat q := rfl

/-! ### The pc and the address space, as numbers -/

/-- `pc <- pc + 4` (R25): for every width `2^XLEN` is more than 4. -/
theorem pcNat_advancePc : s.advancePc.pcNat = (s.pcNat + 4) % s.space := by
  have h : (4 : BitVec s.xlen.bits).toNat = 4 := by
    cases s.xlen <;> rfl
  simp only [State.pcNat, State.advancePc, State.space, BitVec.toNat_add, h]

@[simp] theorem pcNat_writeReg (r : RegIdx) (v) : (s.writeReg r v).pcNat = s.pcNat := rfl
@[simp] theorem pcNat_writeBytes (addr n v) : (s.writeBytes addr n v).pcNat = s.pcNat := rfl
@[simp] theorem pcNat_withMem (m : Memory) : (s.withMem m).pcNat = s.pcNat := rfl
@[simp] theorem space_writeReg (r : RegIdx) (v) : (s.writeReg r v).space = s.space := rfl
@[simp] theorem space_writeBytes (addr n v) : (s.writeBytes addr n v).space = s.space := rfl
@[simp] theorem space_advancePc : s.advancePc.space = s.space := rfl

/-- A number below `2^XLEN`. -/
theorem regNat_lt (r : RegIdx) : s.regNat r < s.space := (s.readReg r).isLt

theorem pcNat_lt : s.pcNat < s.space := s.pc.isLt

/-- The narrowest width admitted is 32 bits (R4). -/
theorem Xlen.thirtyTwo_le_bits (x : Xlen) : 32 ≤ x.bits := by
  cases x <;> decide

theorem space_ge : 2 ^ 32 ≤ s.space :=
  Nat.pow_le_pow_right (by decide) (Xlen.thirtyTwo_le_bits s.xlen)

/-- `2^XLEN` is a multiple of 4. -/
theorem four_dvd_space : 4 ∣ s.space :=
  (pow_dvd_pow 2 (show 2 ≤ s.xlen.bits by have := Xlen.thirtyTwo_le_bits s.xlen; omega))

end Sys2Proof.Machine
end

