-- ==== Sys2Proof/Laws/Ops.lean ====
section
/-! SUPPORT. One lemma, or a few, for each shared operation: the addresses of an access, validity, PROGRAM's range, the
value of some bytes, the bytes of a value, extension. The provers cite these and unfold none of the operations. -/
namespace Sys2Proof.Machine

/-! ### The addresses of an access (R42, R49) -/

theorem byteAddr_lt {w : Nat} (addr : BitVec w) (j : Nat) : byteAddr addr j < 2 ^ w :=
  Nat.mod_lt _ (Nat.two_pow_pos w)

/-- Two bytes of an access of at most `2^w` bytes have different addresses. -/
theorem byteAddr_inj {w : Nat} {addr : BitVec w} {i j : Nat} (hi : i < 2 ^ w) (hj : j < 2 ^ w)
    (h : byteAddr addr i = byteAddr addr j) : i = j := by
  have h1 : i ≡ j [MOD 2 ^ w] := Nat.ModEq.add_left_cancel' addr.toNat h
  exact Nat.ModEq.eq_of_lt_of_lt h1 hi hj

theorem mem_accessAddrs {w : Nat} {addr : BitVec w} {n a : Nat} :
    a ∈ accessAddrs addr n ↔ ∃ j < n, byteAddr addr j = a := by
  simp [accessAddrs]

@[simp] theorem length_accessAddrs {w : Nat} (addr : BitVec w) (n : Nat) : (accessAddrs addr n).length = n := by
  simp [accessAddrs]

theorem nodup_accessAddrs {w : Nat} (addr : BitVec w) {n : Nat} (h : n ≤ 2 ^ w) : (accessAddrs addr n).Nodup := by
  refine List.Nodup.map_on (fun i hi j hj hij => ?_) List.nodup_range
  exact byteAddr_inj ((List.mem_range.1 hi).trans_le h) ((List.mem_range.1 hj).trans_le h) hij

/-- Every access of the machine is far narrower than its address space. -/
theorem le_space_of_le_sixteen (s : State) {n : Nat} (h : n ≤ 16) : n ≤ 2 ^ s.xlen.bits := by
  have := space_ge s
  simp only [State.space] at this
  omega

/-! ### Validity (R48) and PROGRAM's range (R60) -/

theorem admits_iff {s : State} {addr : BitVec s.xlen.bits} {n : Nat} {k : AccessKind} :
    s.admits addr n k = true ↔ ∀ j < n, s.memValid (byteAddr addr j) k = true := by
  simp [State.admits, accessAddrs]

theorem admits_eq_false_iff {s : State} {addr : BitVec s.xlen.bits} {n : Nat} {k : AccessKind} :
    s.admits addr n k = false ↔ ∃ j < n, s.memValid (byteAddr addr j) k = false := by
  simp [State.admits, accessAddrs]

theorem touchesProgram_iff {s : State} {addr : BitVec s.xlen.bits} {n : Nat} :
    s.touchesProgram addr n = true ↔ ∃ j < n, s.inProgram (byteAddr addr j) = true := by
  simp [State.touchesProgram, accessAddrs]

theorem touchesProgram_eq_false_iff {s : State} {addr : BitVec s.xlen.bits} {n : Nat} :
    s.touchesProgram addr n = false ↔ ∀ j < n, s.inProgram (byteAddr addr j) = false := by
  simp [State.touchesProgram, accessAddrs]

/-! ### The value of some bytes (R41, R46) -/

theorem leNat_append (xs : List Byte) (b : Byte) : leNat (xs ++ [b]) = leNat xs + b.toNat * 256 ^ xs.length := by
  induction xs with
  | nil => simp [leNat]
  | cons x rest ih => simp only [List.cons_append, leNat, ih, List.length_cons, pow_succ]; ring

theorem leNat_map_range (b : Nat → Byte) (n : Nat) : leNat ((List.range n).map b) = leSum b n := by
  induction n with
  | zero => rfl
  | succ n ih => rw [List.range_succ, List.map_append, List.map_singleton, leNat_append, ih]; simp [leSum]

theorem leSum_lt (b : Nat → Byte) (n : Nat) : leSum b n < 256 ^ n := by
  induction n with
  | zero => simp [leSum]
  | succ n ih =>
    have := (b n).isLt
    have : (b n).toNat * 256 ^ n ≤ 255 * 256 ^ n := Nat.mul_le_mul_right _ (by omega)
    simp only [leSum, pow_succ]
    omega

theorem leSum_lt_two_pow (b : Nat → Byte) (n : Nat) : leSum b n < 2 ^ (8 * n) := by
  rw [pow_mul]; exact leSum_lt b n

theorem map_get?_accessAddrs {s : State} {addr : BitVec s.xlen.bits} {n : Nat} {b : Nat → Byte}
    (h : s.HoldsBytes addr n b) : (accessAddrs addr n).map s.mem.get? = ((List.range n).map b).map some := by
  simp only [accessAddrs, List.map_map]
  exact List.map_congr_left fun j hj => h j (List.mem_range.1 hj)

/-- Bytes with values: the value read is their little-endian number. -/
theorem bytesAt_of_holds {s : State} {addr : BitVec s.xlen.bits} {n : Nat} {b : Nat → Byte}
    (h : s.HoldsBytes addr n b) : s.bytesAt addr n = some (BitVec.ofNat (8 * n) (leSum b n)) := by
  simp only [State.bytesAt, Memory.getAll_eq_some.2 (map_get?_accessAddrs h), leNat_map_range]

theorem bytesAt_eq_none {s : State} {addr : BitVec s.xlen.bits} {n : Nat} :
    s.bytesAt addr n = none ↔ ∃ j < n, s.mem.get? (byteAddr addr j) = none := by
  have : s.bytesAt addr n = none ↔ s.mem.getAll (accessAddrs addr n) = none := by
    simp only [State.bytesAt]
    cases s.mem.getAll (accessAddrs addr n) <;> simp
  rw [this, Memory.getAll_eq_none]
  simp [accessAddrs]

/-- Bytes that were read have values. -/
theorem holds_of_bytesAt {s : State} {addr : BitVec s.xlen.bits} {n : Nat} {v : BitVec (8 * n)}
    (h : s.bytesAt addr n = some v) : ∃ b, s.HoldsBytes addr n b ∧ v = BitVec.ofNat (8 * n) (leSum b n) := by
  have hne : ∀ j < n, s.mem.get? (byteAddr addr j) ≠ none := fun j hj c =>
    absurd (bytesAt_eq_none.2 ⟨j, hj, c⟩) (by simp [h])
  refine ⟨fun j => (s.mem.get? (byteAddr addr j)).getD 0, ?_, ?_⟩
  · intro j hj
    obtain ⟨b, hb⟩ := Option.ne_none_iff_exists'.1 (hne j hj)
    simp [hb]
  · have := bytesAt_of_holds (s := s) (addr := addr) (n := n)
      (b := fun j => (s.mem.get? (byteAddr addr j)).getD 0) (fun j hj => by
        obtain ⟨b, hb⟩ := Option.ne_none_iff_exists'.1 (hne j hj)
        simp [hb])
    rw [h] at this
    exact Option.some.inj this

/-- Reading depends on the bytes of the access only. -/
theorem bytesAt_withMem {s : State} {addr : BitVec s.xlen.bits} {n : Nat} {m : Memory}
    (h : ∀ j < n, m.get? (byteAddr addr j) = s.mem.get? (byteAddr addr j)) :
    (s.withMem m).bytesAt addr n = s.bytesAt addr n := by
  have : m.getAll (accessAddrs addr n) = s.mem.getAll (accessAddrs addr n) :=
    Memory.getAll_congr fun a ha => by
      obtain ⟨j, hj, rfl⟩ := mem_accessAddrs.1 ha
      exact h j hj
  show (match m.getAll (accessAddrs addr n) with | some bs => _ | none => _) = _
  rw [this]
  rfl

/-! ### The bytes of a value (R41, R47) -/

theorem map_fst_storeBytes {w : Nat} (addr : BitVec w) (n : Nat) (v : BitVec (8 * n)) :
    (storeBytes addr n v).map Prod.fst = accessAddrs addr n := by
  simp [storeBytes, accessAddrs, Function.comp_def]

theorem mem_storeBytes {w : Nat} {addr : BitVec w} {n j : Nat} {v : BitVec (8 * n)} (hj : j < n) :
    (byteAddr addr j, v.extractLsb' (8 * j) 8) ∈ storeBytes addr n v :=
  List.mem_map.2 ⟨j, List.mem_range.2 hj, rfl⟩

/-- A stored byte reads as the value's byte. -/
theorem get?_writeBytes_of_lt {s : State} {addr : BitVec s.xlen.bits} {n j : Nat} {v : BitVec (8 * n)}
    (hn : n ≤ 16) (hj : j < n) :
    (s.writeBytes addr n v).mem.get? (byteAddr addr j) = some (v.extractLsb' (8 * j) 8) :=
  Memory.get?_setAll_of_mem _
    (by rw [map_fst_storeBytes]; exact nodup_accessAddrs _ (le_space_of_le_sixteen s hn)) (mem_storeBytes hj)

/-- A byte outside a store's is as before. -/
theorem get?_writeBytes_of_notMem {s : State} {addr : BitVec s.xlen.bits} {n a : Nat} {v : BitVec (8 * n)}
    (h : a ∉ accessAddrs addr n) : (s.writeBytes addr n v).mem.get? a = s.mem.get? a :=
  Memory.get?_setAll_of_notMem _ _ _ (by rwa [map_fst_storeBytes])

/-- Byte `j` of the value a store takes from a register is bits `8j+7 : 8j` of the register, as a number. -/
theorem extractLsb'_storeValue (s : State) (r : RegIdx) {n j : Nat} (hj : j < n) :
    (s.storeValue r n).extractLsb' (8 * j) 8 = BitVec.ofNat 8 (s.regNat r / 256 ^ j) := by
  apply BitVec.eq_of_toNat_eq
  have h1 : 256 ^ j = 2 ^ (8 * j) := by rw [pow_mul]; norm_num
  have h2 : (2 : Nat) ^ (8 * n) = 2 ^ (8 * j) * 2 ^ (8 * (n - j)) := by
    rw [← pow_add]; congr 1; omega
  have h3 : (2 : Nat) ^ 8 ∣ 2 ^ (8 * (n - j)) := pow_dvd_pow 2 (by omega)
  simp only [State.storeValue, BitVec.extractLsb'_toNat, BitVec.toNat_setWidth, BitVec.toNat_ofNat, State.regNat,
    h1, Nat.shiftRight_eq_div_pow]
  rw [h2, Nat.mod_mul_right_div_self, Nat.mod_mod_of_dvd _ h3]

/-! ### Extension (R9) -/

/-- Zero extension keeps the number. -/
theorem zext_toNat {m w : Nat} (h : m ≤ w) (v : BitVec m) : (Extension.zext.apply v w).toNat = v.toNat := by
  simp only [Extension.apply, BitVec.toNat_setWidth]
  exact Nat.mod_eq_of_lt (v.isLt.trans_le (Nat.pow_le_pow_right (by decide) h))

/-- Sign extension keeps the signed integer. -/
theorem sext_toNat {m w : Nat} (h : m ≤ w) (v : BitVec m) :
    (Extension.sext.apply v w).toNat = sextNat m w v.toNat := by
  have hlt := v.isLt
  have hpow : (2 : Nat) ^ m ≤ 2 ^ w := Nat.pow_le_pow_right (by decide) h
  simp only [Extension.apply, BitVec.toNat_signExtend, BitVec.toNat_setWidth, sextNat, BitVec.msb_eq_decide]
  rw [Nat.mod_eq_of_lt (hlt.trans_le hpow)]
  by_cases hm : m = 0
  · subst hm
    simp [BitVec.eq_nil v]
  have h2 : 2 ^ m = 2 * 2 ^ (m - 1) := by
    rw [← pow_succ']; congr 1; omega
  by_cases hs : 2 ^ (m - 1) ≤ v.toNat
  · have h3 : ¬ 2 * v.toNat < 2 ^ m := by omega
    simp only [hs, decide_true, if_true, h3, if_false]
    omega
  · have h3 : 2 * v.toNat < 2 ^ m := by omega
    simp [hs, h3]

end Sys2Proof.Machine
end

