-- ==== Sys2Proof/Laws/Exec.lean ====
section
/-! SUPPORT. What the meanings can do, said once: every load is `loadOp` and every store `storeOp` with the width, the
least `XLEN` and the extension of its rule, and each of the two ends in one of the listed ways. -/
namespace Sys2Proof.Machine

/-- The least `XLEN` of an instruction, in bits (R5). -/
def leastXlen (i : Instr) : Nat :=
  if i.availableAt .rv32 then 32 else if i.availableAt .rv64 then 64 else 128

/-- The extension of a load (R9, R100). -/
def extensionOf (i : Instr) : Extension :=
  if i.isSigned then .sext else .zext

/-- Availability is a least width (R5, R84). -/
theorem availableAt_iff (i : Instr) (x : Xlen) : i.availableAt x = true ↔ ¬ x.bits < leastXlen i := by
  cases i <;> cases x <;> simp [Instr.availableAt, leastXlen, Xlen.bits]

theorem not_availableAt_iff (i : Instr) (x : Xlen) : i.availableAt x = false ↔ x.bits < leastXlen i := by
  cases i <;> cases x <;> simp [Instr.availableAt, leastXlen, Xlen.bits]

/-- The access of an available instruction is no wider than a register (R5, R42). -/
theorem bytes_le_bits {i : Instr} {x : Xlen} (h : i.availableAt x = true) : 8 * i.bytes ≤ x.bits := by
  revert h
  cases i <;> cases x <;> simp [Instr.availableAt, Instr.bytes, Xlen.bits]

theorem bytes_pos (i : Instr) : 0 < i.bytes := by
  cases i <;> simp [Instr.bytes]

theorem bytes_le_sixteen (i : Instr) : i.bytes ≤ 16 := by
  cases i <;> simp [Instr.bytes]

/-- An instruction is its row with its operands. -/
theorem instr_eta (i : Instr) : i.op.instr i.data i.base i.imm = i := by
  cases i <;> rfl

theorem instr_data (op : Op) (d b : RegIdx) (imm : Imm12) : (op.instr d b imm).data = d := by
  cases op <;> rfl

theorem instr_base (op : Op) (d b : RegIdx) (imm : Imm12) : (op.instr d b imm).base = b := by
  cases op <;> rfl

theorem instr_imm (op : Op) (d b : RegIdx) (imm : Imm12) : (op.instr d b imm).imm = imm := by
  cases op <;> rfl

/-- Every load is the common operation of R100. -/
theorem exec_of_isLoad {i : Instr} (h : i.isLoad = true) (s : State) :
    exec i s = loadOp (leastXlen i) i.bytes (extensionOf i) i i.data i.base i.imm s := by
  cases i <;> first | rfl | cases h

/-- Every store is the common operation of R120. -/
theorem exec_of_isStore {i : Instr} (h : i.isLoad = false) (s : State) :
    exec i s = storeOp (leastXlen i) i.bytes i i.data i.base i.imm s := by
  cases i <;> first | rfl | cases h

/-- What an available load of the number `v` puts into its register (R9, R100). -/
theorem extensionOf_apply_toNat {i : Instr} {x : Xlen} (h : i.availableAt x = true) (v : BitVec (8 * i.bytes)) :
    ((extensionOf i).apply v x.bits).toNat = i.loadedNat x.bits v.toNat := by
  by_cases hs : i.isSigned = true
  · simp only [extensionOf, Instr.loadedNat, hs, if_true]
    exact sext_toNat (bytes_le_bits h) v
  · simp only [extensionOf, Instr.loadedNat, hs]
    exact zext_toNat (bytes_le_bits h) v

/-- The state after a load that read `v`. -/
def afterLoad (i : Instr) (s : State) (v : BitVec (8 * i.bytes)) : State :=
  (s.writeReg i.data ((extensionOf i).apply v s.xlen.bits)).advancePc

/-- The state after a store. -/
def afterStore (i : Instr) (s : State) : State :=
  (s.writeBytes (s.addrOf i) i.bytes (s.storeValue i.data i.bytes)).advancePc

/-! ### The four ways a load ends (R100, R142, U3) -/

theorem exec_unavailable {i : Instr} {s : State} (h : i.availableAt s.xlen = false) :
    exec i s = .fault (.trap (.illegalInstruction (encode s.plat.enc i)) s.pcNat) := by
  have hlt := (not_availableAt_iff i s.xlen).1 h
  cases hl : i.isLoad
  · rw [exec_of_isStore hl, storeOp, if_pos hlt]; rfl
  · rw [exec_of_isLoad hl, loadOp, if_pos hlt]; rfl

theorem exec_load_invalid {i : Instr} {s : State} (hl : i.isLoad = true) (h : i.availableAt s.xlen = true)
    (hv : s.admits (s.addrOf i) i.bytes .read = false) :
    exec i s = .fault (.trap (.loadAccessFault (s.addrOf i).toNat) s.pcNat) := by
  rw [exec_of_isLoad hl, loadOp, if_neg ((availableAt_iff i s.xlen).1 h)]
  simp only [State.addrOf] at hv
  simp only [hv]
  rfl

theorem exec_load_noValue {i : Instr} {s : State} (hl : i.isLoad = true) (h : i.availableAt s.xlen = true)
    (hv : s.admits (s.addrOf i) i.bytes .read = true) (hb : s.bytesAt (s.addrOf i) i.bytes = none) :
    exec i s = .fault (.unspecifiedByte (s.addrOf i).toNat s.pcNat) := by
  rw [exec_of_isLoad hl, loadOp, if_neg ((availableAt_iff i s.xlen).1 h)]
  simp only [State.addrOf] at hv hb
  simp only [hv, hb]
  rfl

theorem exec_load_value {i : Instr} {s : State} {v : BitVec (8 * i.bytes)} (hl : i.isLoad = true)
    (h : i.availableAt s.xlen = true) (hv : s.admits (s.addrOf i) i.bytes .read = true)
    (hb : s.bytesAt (s.addrOf i) i.bytes = some v) : exec i s = .next (afterLoad i s v) := by
  rw [exec_of_isLoad hl, loadOp, if_neg ((availableAt_iff i s.xlen).1 h)]
  simp only [State.addrOf] at hv hb
  simp only [hv, hb]
  rfl

/-! ### The three further ways a store ends (R120, R60, R143) -/

theorem exec_store_program {i : Instr} {s : State} (hl : i.isLoad = false) (h : i.availableAt s.xlen = true)
    (hp : s.touchesProgram (s.addrOf i) i.bytes = true) :
    exec i s = .refused (.storeToProgram (s.addrOf i).toNat s.pcNat) := by
  rw [exec_of_isStore hl, storeOp, if_neg ((availableAt_iff i s.xlen).1 h)]
  simp only [State.addrOf] at hp
  simp only [hp]
  rfl

theorem exec_store_invalid {i : Instr} {s : State} (hl : i.isLoad = false) (h : i.availableAt s.xlen = true)
    (hp : s.touchesProgram (s.addrOf i) i.bytes = false) (hv : s.admits (s.addrOf i) i.bytes .write = false) :
    exec i s = .fault (.trap (.storeAccessFault (s.addrOf i).toNat) s.pcNat) := by
  rw [exec_of_isStore hl, storeOp, if_neg ((availableAt_iff i s.xlen).1 h)]
  simp only [State.addrOf] at hp hv
  simp only [hp, hv]
  rfl

theorem exec_store_valid {i : Instr} {s : State} (hl : i.isLoad = false) (h : i.availableAt s.xlen = true)
    (hp : s.touchesProgram (s.addrOf i) i.bytes = false) (hv : s.admits (s.addrOf i) i.bytes .write = true) :
    exec i s = .next (afterStore i s) := by
  rw [exec_of_isStore hl, storeOp, if_neg ((availableAt_iff i s.xlen).1 h)]
  simp only [State.addrOf] at hp hv
  simp only [hp, hv]
  rfl

/-! ### Inversion -/

/-- The ways an instruction ends, with the conditions of each. -/
theorem exec_cases (i : Instr) (s : State) :
    (i.availableAt s.xlen = false ∧
      exec i s = .fault (.trap (.illegalInstruction (encode s.plat.enc i)) s.pcNat)) ∨
    (i.availableAt s.xlen = true ∧ i.isLoad = true ∧ s.admits (s.addrOf i) i.bytes .read = false ∧
      exec i s = .fault (.trap (.loadAccessFault (s.addrOf i).toNat) s.pcNat)) ∨
    (i.availableAt s.xlen = true ∧ i.isLoad = true ∧ s.admits (s.addrOf i) i.bytes .read = true ∧
      s.bytesAt (s.addrOf i) i.bytes = none ∧ exec i s = .fault (.unspecifiedByte (s.addrOf i).toNat s.pcNat)) ∨
    (i.availableAt s.xlen = true ∧ i.isLoad = true ∧ s.admits (s.addrOf i) i.bytes .read = true ∧
      ∃ v, s.bytesAt (s.addrOf i) i.bytes = some v ∧ exec i s = .next (afterLoad i s v)) ∨
    (i.availableAt s.xlen = true ∧ i.isLoad = false ∧ s.touchesProgram (s.addrOf i) i.bytes = true ∧
      exec i s = .refused (.storeToProgram (s.addrOf i).toNat s.pcNat)) ∨
    (i.availableAt s.xlen = true ∧ i.isLoad = false ∧ s.touchesProgram (s.addrOf i) i.bytes = false ∧
      s.admits (s.addrOf i) i.bytes .write = false ∧
      exec i s = .fault (.trap (.storeAccessFault (s.addrOf i).toNat) s.pcNat)) ∨
    (i.availableAt s.xlen = true ∧ i.isLoad = false ∧ s.touchesProgram (s.addrOf i) i.bytes = false ∧
      s.admits (s.addrOf i) i.bytes .write = true ∧ exec i s = .next (afterStore i s)) := by
  cases h : i.availableAt s.xlen with
  | false => exact .inl ⟨rfl, exec_unavailable h⟩
  | true =>
    right
    cases hl : i.isLoad with
    | true =>
      cases hv : s.admits (s.addrOf i) i.bytes .read with
      | false => exact .inl ⟨rfl, rfl, rfl, exec_load_invalid hl h hv⟩
      | true =>
        right
        cases hb : s.bytesAt (s.addrOf i) i.bytes with
        | none => exact .inl ⟨rfl, rfl, rfl, rfl, exec_load_noValue hl h hv hb⟩
        | some v => exact .inr (.inl ⟨rfl, rfl, rfl, v, rfl, exec_load_value hl h hv hb⟩)
    | false =>
      right; right; right
      cases hp : s.touchesProgram (s.addrOf i) i.bytes with
      | true => exact .inl ⟨rfl, rfl, rfl, exec_store_program hl h hp⟩
      | false =>
        right
        cases hv : s.admits (s.addrOf i) i.bytes .write with
        | false => exact .inl ⟨rfl, rfl, rfl, rfl, exec_store_invalid hl h hp hv⟩
        | true => exact .inr ⟨rfl, rfl, rfl, rfl, exec_store_valid hl h hp hv⟩

/-- An instruction that completes is a load that read a value or a store that wrote its bytes. -/
theorem exec_next_cases {i : Instr} {s t : State} (h : exec i s = .next t) :
    (i.isLoad = true ∧ i.availableAt s.xlen = true ∧ s.admits (s.addrOf i) i.bytes .read = true ∧
      ∃ v, s.bytesAt (s.addrOf i) i.bytes = some v ∧ t = afterLoad i s v) ∨
    (i.isLoad = false ∧ i.availableAt s.xlen = true ∧ s.touchesProgram (s.addrOf i) i.bytes = false ∧
      s.admits (s.addrOf i) i.bytes .write = true ∧ t = afterStore i s) := by
  rcases exec_cases i s with ⟨-, e⟩ | ⟨-, -, -, e⟩ | ⟨-, -, -, -, e⟩ | ⟨ha, hl, hv, v, hb, e⟩ | ⟨-, -, -, e⟩ |
    ⟨-, -, -, -, e⟩ | ⟨ha, hl, hp, hv, e⟩ <;> rw [e] at h <;> cases h
  · exact .inl ⟨hl, ha, hv, v, hb, rfl⟩
  · exact .inr ⟨hl, ha, hp, hv, rfl⟩

/-! ### The state after a load and after a store -/

theorem regNat_afterLoad {i : Instr} {s : State} (h : i.availableAt s.xlen = true) (v : BitVec (8 * i.bytes))
    (r : RegIdx) : (afterLoad i s v).regNat r =
      if r = 0 then 0 else if r = i.data then i.loadedNat s.xlen.bits v.toNat else s.regNat r := by
  rw [afterLoad, regNat_advancePc, regNat_writeReg, extensionOf_apply_toNat h]

@[simp] theorem afterLoad_mem (i : Instr) (s : State) (v) : (afterLoad i s v).mem = s.mem := rfl
@[simp] theorem afterLoad_plat (i : Instr) (s : State) (v) : (afterLoad i s v).plat = s.plat := rfl
@[simp] theorem afterLoad_xlen (i : Instr) (s : State) (v) : (afterLoad i s v).xlen = s.xlen := rfl
theorem afterLoad_pcNat (i : Instr) (s : State) (v) : (afterLoad i s v).pcNat = (s.pcNat + 4) % s.space := by
  rw [afterLoad, pcNat_advancePc]; rfl

@[simp] theorem afterStore_mem (i : Instr) (s : State) :
    (afterStore i s).mem = (s.writeBytes (s.addrOf i) i.bytes (s.storeValue i.data i.bytes)).mem := rfl
@[simp] theorem afterStore_plat (i : Instr) (s : State) : (afterStore i s).plat = s.plat := rfl
@[simp] theorem afterStore_xlen (i : Instr) (s : State) : (afterStore i s).xlen = s.xlen := rfl
@[simp] theorem afterStore_regNat (i : Instr) (s : State) (r) : (afterStore i s).regNat r = s.regNat r := rfl
theorem afterStore_pcNat (i : Instr) (s : State) : (afterStore i s).pcNat = (s.pcNat + 4) % s.space := by
  rw [afterStore, pcNat_advancePc]; rfl

/-- A stored byte, as a byte of the register's number. -/
theorem afterStore_get?_of_lt {i : Instr} {s : State} {j : Nat} (hj : j < i.bytes) :
    (afterStore i s).mem.get? (byteAddr (s.addrOf i) j) = some (BitVec.ofNat 8 (s.regNat i.data / 256 ^ j)) := by
  rw [afterStore_mem, get?_writeBytes_of_lt (bytes_le_sixteen i) hj, extractLsb'_storeValue _ _ hj]

/-- A byte outside the store's. -/
theorem afterStore_get?_of_notMem {i : Instr} {s : State} {a : Nat} (h : a ∉ accessAddrs (s.addrOf i) i.bytes) :
    (afterStore i s).mem.get? a = s.mem.get? a := by
  rw [afterStore_mem, get?_writeBytes_of_notMem h]

end Sys2Proof.Machine
end

