-- ==== Sys2Proof/Laws/PerInstr.lean ====
section
/-! SUPPORT. The families of per-instruction lemmas that LAWS.json names: one lemma per constructor. -/
namespace Sys2Proof.Laws.EncodedInItsRow

/-- The word of an instruction, masked, is its row's `match` (R81, R89). -/
def Statement (i : Instr) : Prop :=
  ∀ e : Encodings, encode e i &&& tableMask = (i.op.code e).matchWord

/-- An I-type word, masked. -/
theorem encodeI_masked (c : Code) (rd rs1 : RegIdx) (imm : Imm12) :
    encodeI c rd rs1 imm &&& tableMask = c.matchWord := by
  rw [masked_eq, (encodeI_fields c rd rs1 imm).1, (encodeI_fields c rd rs1 imm).2.1]

/-- An S-type word, masked. -/
theorem encodeS_masked (c : Code) (rs2 rs1 : RegIdx) (imm : Imm12) :
    encodeS c rs2 rs1 imm &&& tableMask = c.matchWord := by
  rw [masked_eq, (encodeS_fields c rs2 rs1 imm).1, (encodeS_fields c rs2 rs1 imm).2.1]

theorem lb (rd rs1 : RegIdx) (imm : Imm12) : Statement (.lb rd rs1 imm) := fun _ => encodeI_masked _ _ _ _
theorem lbu (rd rs1 : RegIdx) (imm : Imm12) : Statement (.lbu rd rs1 imm) := fun _ => encodeI_masked _ _ _ _
theorem lh (rd rs1 : RegIdx) (imm : Imm12) : Statement (.lh rd rs1 imm) := fun _ => encodeI_masked _ _ _ _
theorem lhu (rd rs1 : RegIdx) (imm : Imm12) : Statement (.lhu rd rs1 imm) := fun _ => encodeI_masked _ _ _ _
theorem lw (rd rs1 : RegIdx) (imm : Imm12) : Statement (.lw rd rs1 imm) := fun _ => encodeI_masked _ _ _ _
theorem lwu (rd rs1 : RegIdx) (imm : Imm12) : Statement (.lwu rd rs1 imm) := fun _ => encodeI_masked _ _ _ _
theorem ld (rd rs1 : RegIdx) (imm : Imm12) : Statement (.ld rd rs1 imm) := fun _ => encodeI_masked _ _ _ _
theorem ldu (rd rs1 : RegIdx) (imm : Imm12) : Statement (.ldu rd rs1 imm) := fun _ => encodeI_masked _ _ _ _
theorem lq (rd rs1 : RegIdx) (imm : Imm12) : Statement (.lq rd rs1 imm) := fun _ => encodeI_masked _ _ _ _
theorem sb (rs2 rs1 : RegIdx) (imm : Imm12) : Statement (.sb rs2 rs1 imm) := fun _ => encodeS_masked _ _ _ _
theorem sh (rs2 rs1 : RegIdx) (imm : Imm12) : Statement (.sh rs2 rs1 imm) := fun _ => encodeS_masked _ _ _ _
theorem sw (rs2 rs1 : RegIdx) (imm : Imm12) : Statement (.sw rs2 rs1 imm) := fun _ => encodeS_masked _ _ _ _
theorem sd (rs2 rs1 : RegIdx) (imm : Imm12) : Statement (.sd rs2 rs1 imm) := fun _ => encodeS_masked _ _ _ _
theorem sq (rs2 rs1 : RegIdx) (imm : Imm12) : Statement (.sq rs2 rs1 imm) := fun _ => encodeS_masked _ _ _ _

end Sys2Proof.Laws.EncodedInItsRow
end

