-- ==== Sys2Proof/Laws/Step.lean ====
section
/-! SUPPORT. What a step can do, said once, and where fetch finds what. -/
namespace Sys2Proof.Machine

/-! ### Programs without a meaning -/

/-- A word decodes when it matches a row. -/
theorem decode_ok_iff {e : Encodings} {inst : InstWord} :
    (∃ i, decode e inst = .ok i) ↔ (findRow e inst).isNone = false := by
  simp only [decode]
  cases findRow e inst with
  | none => simp
  | some r => cases h : r.op.format <;> simp [h]

/-- PROGRAM has a meaning when no word of it is found that matches no row. -/
theorem programHasMeaning_iff {s : State} :
    s.ProgramHasMeaning ↔ s.plat.program.unknownWord? s.plat.enc = none := by
  simp only [State.ProgramHasMeaning, Program.unknownWord?, List.find?_eq_none, decode_ok_iff, Bool.not_eq_true]

/-- The word found is a word of PROGRAM that decodes to nothing. -/
theorem unknownWord?_eq_some {e : Encodings} {p : Program} {inst : InstWord} (h : p.unknownWord? e = some inst) :
    inst ∈ p.words ∧ decode e inst = .error (.noRow inst) := by
  have h1 := List.find?_some h
  refine ⟨List.mem_of_find?_eq_some h, ?_⟩
  simp only [Option.isNone_iff_eq_none] at h1
  simp only [decode, h1]

theorem ifProgramHasMeaning_of {s : State} (h : s.ProgramHasMeaning) (r : Result) : s.ifProgramHasMeaning r = r := by
  simp only [State.ifProgramHasMeaning, programHasMeaning_iff.1 h]

/-- What a step answers is kept, or the whole program is refused. -/
theorem ifProgramHasMeaning_cases (s : State) :
    (s.ProgramHasMeaning ∧ ∀ r, s.ifProgramHasMeaning r = r) ∨
    ∃ inst ∈ s.plat.program.words, decode s.plat.enc inst = .error (.noRow inst) ∧
      ∀ r, s.ifProgramHasMeaning r = .refused (.unknownWordInProgram inst s.pcNat) := by
  cases h : s.plat.program.unknownWord? s.plat.enc with
  | none => exact .inl ⟨programHasMeaning_iff.2 h, ifProgramHasMeaning_of (programHasMeaning_iff.2 h)⟩
  | some inst =>
    obtain ⟨h1, h2⟩ := unknownWord?_eq_some h
    exact .inr ⟨inst, h1, h2, fun r => by simp only [State.ifProgramHasMeaning, h]; rfl⟩

/-! ### Inversion -/

/-- The ways a step ends, by what fetch finds, what the word decodes to and whether PROGRAM has a meaning. -/
theorem step_cases (s : State) :
    (s.fetch = .ended ∧ s.ProgramHasMeaning ∧ step s = .next s) ∨
    (s.fetch = .outside ∧ s.ProgramHasMeaning ∧
      step s = .fault (.trap (.instructionAccessFault s.pcNat) s.pcNat)) ∨
    (∃ inst r, s.fetch = .word inst ∧ decode s.plat.enc inst = .error r ∧
      step s = .refused (.unknownWord inst s.pcNat)) ∨
    (∃ inst i, s.fetch = .word inst ∧ decode s.plat.enc inst = .ok i ∧ s.ProgramHasMeaning ∧ step s = exec i s) ∨
    ∃ inst ∈ s.plat.program.words, decode s.plat.enc inst = .error (.noRow inst) ∧
      (∀ w, s.fetch = .word w → ∃ i, decode s.plat.enc w = .ok i) ∧
      step s = .refused (.unknownWordInProgram inst s.pcNat) := by
  cases hf : s.fetch with
  | ended =>
    rcases ifProgramHasMeaning_cases s with ⟨hm, e⟩ | ⟨inst, h1, h2, e⟩
    · exact .inl ⟨rfl, hm, by simp only [step, hf, e]⟩
    · exact .inr (.inr (.inr (.inr ⟨inst, h1, h2, nofun, by simp only [step, hf, e]⟩)))
  | outside =>
    rcases ifProgramHasMeaning_cases s with ⟨hm, e⟩ | ⟨inst, h1, h2, e⟩
    · exact .inr (.inl ⟨rfl, hm, by simp only [step, hf, e]; rfl⟩)
    · exact .inr (.inr (.inr (.inr ⟨inst, h1, h2, nofun, by simp only [step, hf, e]⟩)))
  | word w =>
    cases hd : decode s.plat.enc w with
    | error r => exact .inr (.inr (.inl ⟨w, r, rfl, hd, by simp only [step, hf, hd]; rfl⟩))
    | ok i =>
      rcases ifProgramHasMeaning_cases s with ⟨hm, e⟩ | ⟨inst, h1, h2, e⟩
      · exact .inr (.inr (.inr (.inl ⟨w, i, rfl, hd, hm, by simp only [step, hf, hd, e]⟩)))
      · refine .inr (.inr (.inr (.inr ⟨inst, h1, h2, ?_, by simp only [step, hf, hd, e]⟩)))
        intro w' hw
        cases hw
        exact ⟨i, hd⟩

/-- A step that goes on is the stopped hart's, or that of an instruction that completes. -/
theorem step_next_cases {s t : State} (h : step s = .next t) :
    (s.fetch = .ended ∧ t = s) ∨
    ∃ inst i, s.fetch = .word inst ∧ decode s.plat.enc inst = .ok i ∧ exec i s = .next t := by
  rcases step_cases s with ⟨hf, -, e⟩ | ⟨-, -, e⟩ | ⟨_, _, -, -, e⟩ | ⟨inst, i, hf, hd, -, e⟩ | ⟨_, -, -, -, e⟩ <;>
    rw [e] at h
  · cases h; exact .inl ⟨hf, rfl⟩
  · cases h
  · cases h
  · exact .inr ⟨inst, i, hf, hd, h⟩
  · cases h

/-- A step goes on, or faults, only in a program that has a meaning. -/
theorem programHasMeaning_of_step {s : State} (h : ∀ q, step s ≠ .refused q) : s.ProgramHasMeaning := by
  rcases step_cases s with ⟨-, hm, -⟩ | ⟨-, hm, -⟩ | ⟨_, _, -, -, e⟩ | ⟨_, _, -, -, hm, -⟩ | ⟨_, -, -, -, e⟩
  · exact hm
  · exact hm
  · exact absurd e (h _)
  · exact hm
  · exact absurd e (h _)

/-! ### PROGRAM's addresses -/

/-- How far an address lies past `PROGRAM.base`, for an address written as the base plus a distance. -/
theorem programOffset_of_eq {s : State} {a d : Nat} (hd : d < s.space)
    (ha : a = (s.plat.program.base + d) % s.space) : s.programOffset a = d := by
  subst ha
  simp only [State.programOffset, BitVec.toNat_sub, BitVec.toNat_ofNat, State.space] at hd ⊢
  generalize 2 ^ s.xlen.bits = m at hd ⊢
  generalize s.plat.program.base = b
  have hm : 0 < m := by omega
  have hb : b % m < m := Nat.mod_lt _ hm
  have h1 : m - b % m + (b + d) % m ≡ d [MOD m] := by
    have h2 : (b + d) % m ≡ b % m + d [MOD m] :=
      (Nat.mod_modEq _ _).trans ((Nat.mod_modEq b m).symm.add_right d)
    refine (h2.add_left (m - b % m)).trans ?_
    rw [← Nat.add_assoc, Nat.sub_add_cancel hb.le]
    exact Nat.add_modEq_left
  have h3 : (m - b % m + (b + d) % m % m) % m = d % m := by rw [Nat.mod_mod]; exact h1
  rw [h3, Nat.mod_eq_of_lt hd]

/-- An address of the address space is the base plus its distance past the base. -/
theorem eq_of_programOffset {s : State} {a : Nat} (ha : a < s.space) :
    a = (s.plat.program.base + s.programOffset a) % s.space := by
  simp only [State.programOffset, BitVec.toNat_sub, BitVec.toNat_ofNat, State.space] at ha ⊢
  generalize 2 ^ s.xlen.bits = m at ha ⊢
  generalize s.plat.program.base = b
  have hm : 0 < m := by omega
  have hb : b % m < m := Nat.mod_lt _ hm
  have h1 : b + (m - b % m + a) ≡ a [MOD m] := by
    have h2 : b + (m - b % m + a) ≡ b % m + (m - b % m + a) [MOD m] := (Nat.mod_modEq b m).symm.add_right _
    refine h2.trans ?_
    rw [← Nat.add_assoc, Nat.add_sub_cancel' hb.le]
    exact Nat.add_modEq_left
  have h3 : (b + (m - b % m + a % m) % m) % m = a % m := by
    rw [Nat.add_mod_mod, Nat.mod_eq_of_lt ha]
    rw [h1, Nat.mod_eq_of_lt ha]
  rw [h3, Nat.mod_eq_of_lt ha]

/-- Fetch by the distance of the pc past the base. -/
theorem fetch_of_offset {s : State} {k : Nat} (h : s.programOffset s.pcNat = 4 * k) :
    s.fetch = match s.plat.program.words[k]? with
      | some inst => .word inst
      | none => if k = s.plat.program.words.length then .ended else .outside := by
  simp only [State.pcNat] at h
  simp only [State.fetch, h]
  rw [if_pos (by omega)]
  have : 4 * k / 4 = k := by omega
  cases hk : s.plat.program.words[k]? <;> simp only [this, hk]

theorem fetch_of_misaligned_offset {s : State} (h : s.programOffset s.pcNat % 4 ≠ 0) : s.fetch = .outside := by
  simp only [State.pcNat] at h
  simp only [State.fetch, if_neg h]

/-- What `Program.wf` says of PROGRAM's length: it and its end-of-run address do not wrap onto the base. -/
theorem program_length_lt {s : State} (h : s.plat.program.wf s.xlen = true) :
    4 * s.plat.program.words.length < s.space := by
  simp only [Program.wf, Bool.and_eq_true, decide_eq_true_eq] at h
  exact h.2

/-! ### Placing a word -/

/-- The word placed is the one the next step fetches. -/
theorem fetch_withFetchWord (s : State) (nbits w : Nat) : (s.withFetchWord nbits w).fetch = .word (tableWord nbits w) := by
  have single : ∀ u : State, u.plat.program = { base := u.pc.toNat, words := [tableWord nbits w] } →
      u.fetch = .word (tableWord nbits w) := by
    intro u hu
    have h0 : u.programOffset u.pcNat = 4 * 0 := by simp [State.programOffset, State.pcNat, hu]
    rw [fetch_of_offset h0, hu]
    rfl
  cases hf : s.fetch with
  | ended => exact single _ (by simp only [State.withFetchWord, State.programWithWord, hf])
  | outside => exact single _ (by simp only [State.withFetchWord, State.programWithWord, hf])
  | word v =>
    by_cases hall : (s.plat.program.words.set (s.programOffset s.pc.toNat / 4) (tableWord nbits w)).all fun v =>
        v == tableWord nbits w || (findRow s.plat.enc v).isSome
    · simp only [State.fetch] at hf
      split at hf
      · rename_i h4
        have hlt : s.programOffset s.pc.toNat / 4 < s.plat.program.words.length := by
          by_contra hge
          rw [List.getElem?_eq_none (by omega)] at hf
          simp only at hf
          split at hf <;> cases hf
        have hp : (s.withFetchWord nbits w).plat.program = { s.plat.program with
            words := s.plat.program.words.set (s.programOffset s.pc.toNat / 4) (tableWord nbits w) } := by
          have hf' : s.fetch = .word v := by simpa only [State.fetch, if_pos h4] using hf
          simp only [State.withFetchWord, State.programWithWord, hf', hall, if_true]
        have ho : (s.withFetchWord nbits w).programOffset (s.withFetchWord nbits w).pcNat =
            4 * (s.programOffset s.pc.toNat / 4) := by
          have : (s.withFetchWord nbits w).programOffset (s.withFetchWord nbits w).pcNat = s.programOffset s.pc.toNat := by
            simp only [State.programOffset, hp]
            rfl
          omega
        rw [fetch_of_offset ho, hp]
        simp [hlt]
      · cases hf
    · exact single _ (by simp only [State.withFetchWord, State.programWithWord, hf, hall]; rfl)

/-- The word placed, when it is an instruction, is what the next step performs. -/
theorem step_withFetchWord {s : State} {nbits w : Nat} {i : Instr} (h : decode s.plat.enc (tableWord nbits w) = .ok i) :
    step (s.withFetchWord nbits w) = exec i (s.withFetchWord nbits w) := by
  have hm : (s.withFetchWord nbits w).ProgramHasMeaning := by
    intro v hv
    change v ∈ (s.programWithWord (tableWord nbits w)).words at hv
    change ∃ j, decode s.plat.enc v = .ok j
    by_cases hvw : v = tableWord nbits w
    · exact ⟨i, hvw ▸ h⟩
    · simp only [State.programWithWord] at hv
      split at hv
      · split at hv
        · rename_i hall
          have hk := List.all_eq_true.1 hall v hv
          rw [decode_ok_iff]
          cases hr : findRow s.plat.enc v <;> simp_all
        · exact absurd (List.mem_singleton.1 hv) hvw
      · exact absurd (List.mem_singleton.1 hv) hvw
  simp only [step, fetch_withFetchWord, ifProgramHasMeaning_of hm]
  rw [show (s.withFetchWord nbits w).plat.enc = s.plat.enc from rfl, h]

/-! ### Runs -/

theorem runFor_zero (s : State) : runFor 0 s = .next s := rfl

theorem runFor_succ (k : Nat) (s : State) : runFor (k + 1) s =
    match step s with
    | .next t => runFor k t
    | .fault f => .fault f
    | .refused r => .refused r := by
  have h : Sys2Proof.core.step s = step s := rfl
  simp only [runFor, Host.Core.run, h]
  cases step s <;> rfl

/-- A run that goes on for one step more went on for a step first. -/
theorem runFor_succ_next {k : Nat} {s t : State} (h : runFor (k + 1) s = .next t) :
    ∃ u, step s = .next u ∧ runFor k u = .next t := by
  rw [runFor_succ] at h
  cases hs : step s with
  | next u => exact ⟨u, rfl, by simpa [hs] using h⟩
  | fault f => simp [hs] at h
  | refused r => simp [hs] at h

/-- What holds at the start of a run and is kept by every step holds at its end. -/
theorem runFor_induction {P : State → Prop} (hstep : ∀ s t, P s → step s = .next t → P t) {k : Nat} {s t : State}
    (h0 : P s) (h : runFor k s = .next t) : P t := by
  induction k generalizing s with
  | zero => rw [runFor_zero] at h; cases h; exact h0
  | succ k ih =>
    obtain ⟨u, hu, hk⟩ := runFor_succ_next h
    exact ih (hstep s u h0 hu) hk

end Sys2Proof.Machine
end

