-- ==== Sys2Proof/Tests/Slice0.lean ====
section
/-! SUPPORT. The model's own tests, by `decide`: decoding of words written out in the spec, the checks of WellFormed, one
step of each instruction on the spec's vectors, and for each statement with hypotheses a witness that meets them. Expected
values are those of 95_test_vectors.md and of the worked examples of 40_loads.md and 41_stores.md. -/
namespace Sys2Proof.Tests
open Sys2Proof.Machine

/-! ### Helpers -/

/-- Every address may be read and written. -/
def allValid : List Region :=
  [{ base := 0, size := 2 ^ 128, read := true, write := true }]

/-- A state with PROGRAM at 0x100 and the pc there, the given valid regions, registers and bytes. -/
def state (x : Xlen) (valid : List Region) (words : List InstWord) (regs : List (RegIdx × Nat)) (mem : Memory) : State :=
  regs.foldl (fun s c => s.writeReg c.1 (BitVec.ofNat s.xlen.bits c.2))
    (State.resetOf
      { xlen := x
        plat := { memValid := valid, program := { base := 0x100, words := words }, enc := Encodings.default }
        resetPc := 0x100
        memInit := mem })

/-- Bytes at increasing addresses. -/
def bytesFrom (a : Nat) : List Byte → Memory
  | [] => []
  | b :: rest => (a, b) :: bytesFrom (a + 1) rest

/-- A register of the next state. -/
def outReg (r : RegIdx) : Result → Option Nat
  | .next t => some (t.regNat r)
  | _ => none

/-- The bytes of the next state from an address on. -/
def outBytes (a n : Nat) : Result → Option (List Byte)
  | .next t => t.mem.getAll ((List.range n).map (a + ·))
  | _ => none

/-- The pc of the next state. -/
def outPc : Result → Option Nat
  | .next t => some t.pcNat
  | _ => none

def outFault : Result → Option Fault
  | .fault f => some f
  | _ => none

def outRefusal : Result → Option Refusal
  | .refused r => some r
  | _ => none

/-- One step of a word at the pc, with x9 = 0x1000, x4 = `x4` and the bytes at 0x1000 (95_test_vectors.md 2.2, 2.4). -/
def step1 (x : Xlen) (inst : InstWord) (x4 : Nat) (bs : List Byte) : Result :=
  step (state x allValid [inst] [(9, 0x1000), (4, x4)] (bytesFrom 0x1000 bs))

/-! ### Decoding: words of 95_test_vectors.md section 2.1 -/

theorem test_decode_lw_negative : decode Encodings.default 0xFFC12503#32 = .ok (.lw 10 2 (-4)) := rfl
theorem test_decode_sw_negative : decode Encodings.default 0xFEA12E23#32 = .ok (.sw 10 2 (-4)) := rfl
theorem test_decode_lb_least : decode Encodings.default 0x80048203#32 = .ok (.lb 4 9 (-2048)) := rfl
theorem test_decode_sb_greatest : decode Encodings.default 0x7E448FA3#32 = .ok (.sb 4 9 2047) := rfl
theorem test_decode_lbu_all_ones : decode Encodings.default 0xFFFFCF83#32 = .ok (.lbu 31 31 (-1)) := rfl
theorem test_decode_sd_all_ones : decode Encodings.default 0xFFFFBFA3#32 = .ok (.sd 31 31 (-1)) := rfl
theorem test_decode_sh : decode Encodings.default 0xFEB51F23#32 = .ok (.sh 11 10 (-2)) := rfl

/-- A word of each row, written bit by bit from R73, R74 and R78 to R80, read from its bytes. -/
theorem test_decode_bytes_lq : decodeBytes Encodings.default [0x0F#8, 0xA2#8, 0x24#8, 0x4D#8] =
    .ok (.lq 4 9 1234, []) := rfl
theorem test_decode_bytes_sq : decodeBytes Encodings.default [0x23#8, 0xC9#8, 0x44#8, 0x4C#8, 0x55#8] =
    .ok (.sq 4 9 1234, [0x55#8]) := rfl
theorem test_decode_bytes_short : decodeBytes Encodings.default [0x23#8, 0xC9#8, 0x44#8] = .error .tooShort := rfl
theorem test_decodeTableWord_ldu : decodeTableWord 32 0x4D24F203 = some (.ldu 4 9 1234) := rfl
theorem test_decodeTableWord_none : decodeTableWord 32 0x00000013 = none := rfl

/-- The words of section 2.1 that match no row. -/
theorem test_decode_refused :
    [0x00005023#32, 0x0000000F#32, 0x00000013#32, 0x00007023#32, 0x00000000#32, 0xFFFFFFFF#32].map
      (fun w => (findRow Encodings.default w).isNone) = [true, true, true, true, true, true] := rfl

theorem test_encode_source_lb : encode Encodings.default (.lb 4 9 1234) = 0x4D248203#32 := by decide
theorem test_encode_source_sb : encode Encodings.default (.sb 4 9 1234) = 0x4C448923#32 := by decide

/-- A replaced code is used by the decoder: LQ under another MISC-MEM funct3. -/
theorem test_decode_replaced_lq :
    decode { Encodings.default with lq := ⟨majorMiscMem, 0b101#3⟩ } 0x4D24D20F#32 = .ok (.lq 4 9 1234) := rfl

/-! ### WellFormed refuses ill-formed terms, one for each check -/

theorem test_wf_lwu_not_at_32 : (Instr.lwu 1 2 3).availableAt .rv32 = false := by decide
theorem test_wf_ldu_not_at_64 : (Instr.ldu 1 2 3).availableAt .rv64 = false := by decide
theorem test_wf_sq_at_128 : (Instr.sq 1 2 3).availableAt .rv128 = true := by decide
theorem test_wf_code_taken_load : Code.isFree ⟨majorLoad, 0b110#3⟩ = false := by decide
theorem test_wf_code_taken_store : Code.isFree ⟨majorStore, 0b011#3⟩ = false := by decide
theorem test_wf_code_not_32_bits : Code.isFree ⟨0b0000001#7, 0b000#3⟩ = false := by decide
theorem test_wf_codes_ldu_lq : Encodings.wf { Encodings.default with lq := Encodings.default.ldu } = false := by decide
theorem test_wf_codes_ldu_sq : Encodings.wf { Encodings.default with sq := Encodings.default.ldu } = false := by decide
theorem test_wf_codes_lq_sq : Encodings.wf { Encodings.default with sq := Encodings.default.lq } = false := by decide
theorem test_wf_codes_ldu_taken : Encodings.wf { Encodings.default with ldu := ⟨majorLoad, 0b000#3⟩ } = false := by decide
theorem test_wf_codes_lq_taken : Encodings.wf { Encodings.default with lq := ⟨majorLoad, 0b000#3⟩ } = false := by decide
theorem test_wf_codes_sq_taken : Encodings.wf { Encodings.default with sq := ⟨majorStore, 0b000#3⟩ } = false := by decide
theorem test_wf_program_base : Program.wf .rv32 { base := 0x102, words := [] } = false := by decide
theorem test_wf_program_base_in_space : Program.wf .rv32 { base := 2 ^ 32, words := [] } = false := by decide
theorem test_wf_program_length :
    Program.wf .rv32 { base := 0, words := List.replicate (2 ^ 30) 0#32 } = false := by
  simp only [Program.wf, List.length_replicate, Xlen.bits]
  decide
theorem test_wf_cells_unsorted : cellsRising [(2, 0#8), (1, 0#8)] = false := by decide
theorem test_wf_cells_repeated : cellsRising [(1, 0#8), (1, 0#8)] = false := by decide
theorem test_wf_cells_outside : cellsInSpace .rv32 [(2 ^ 32, 0#8)] = false := by decide
theorem test_wf_params_pc : Params.wf { Params.default with resetPc := 0x1002#128 } = false := by decide
theorem test_wf_params_memInit : Params.wf { Params.default with memInit := [(2, 0#8), (1, 0#8)] } = false := by decide
theorem test_wf_params_memInit_outside : Params.wf { Params.default with memInit := [(2 ^ 128, 0#8)] } = false := by
  decide
theorem test_wf_params_program :
    Params.wf { Params.default with plat := { Params.default.plat with program := ⟨2, []⟩ } } = false := by decide
theorem test_wf_params_enc :
    Params.wf { Params.default with plat :=
      { Params.default.plat with enc := { Encodings.default with lq := Encodings.default.ldu } } } = false := by decide
theorem test_wf_default : Params.wf Params.default = true := by decide

/-! ### One step of each load (95_test_vectors.md sections 2.2, 2.3) -/

theorem test_lb_rv128 : outReg 4 (step1 .rv128 0x00048203#32 0 [0x80#8]) = some (2 ^ 128 - 128) := by decide
theorem test_lb_positive : outReg 4 (step1 .rv64 0x00048203#32 0 [0x7F#8]) = some 0x7F := by decide
theorem test_lbu : outReg 4 (step1 .rv64 0x0004C203#32 0 [0x80#8]) = some 0x80 := by decide
theorem test_lh : outReg 4 (step1 .rv64 0x00049203#32 0 [0x00#8, 0x80#8]) = some 0xFFFFFFFFFFFF8000 := by decide
theorem test_lhu_misaligned :
    outReg 4 (step1 .rv64 0x0014D203#32 0 [0x10#8, 0x32#8, 0x54#8]) = some 0x5432 := by decide
theorem test_lw_rv32 : outReg 4 (step1 .rv32 0x0004A203#32 0 [0#8, 0#8, 0#8, 0x80#8]) = some 0x80000000 := by decide
theorem test_lw_rv64 : outReg 4 (step1 .rv64 0x0004A203#32 0 [0#8, 0#8, 0#8, 0x80#8]) = some 0xFFFFFFFF80000000 := by
  decide
theorem test_lwu_rv64 : outReg 4 (step1 .rv64 0x0004E203#32 0 [0#8, 0#8, 0#8, 0x80#8]) = some 0x80000000 := by decide
theorem test_lwu_rv32 : outFault (step1 .rv32 0x0004E203#32 0 [0#8, 0#8, 0#8, 0x80#8]) =
    some (.trap (.illegalInstruction 0x0004E203#32) 0x100) := by decide
theorem test_ld_rv64 : outReg 4 (step1 .rv64 0x0004B203#32 0
    [0x10#8, 0x32#8, 0x54#8, 0x76#8, 0x98#8, 0xBA#8, 0xDC#8, 0xFE#8]) = some 0xFEDCBA9876543210 := by decide
theorem test_ld_rv128 : outReg 4 (step1 .rv128 0x0004B203#32 0
    [0#8, 0#8, 0#8, 0#8, 0#8, 0#8, 0#8, 0x80#8]) = some 0xFFFFFFFFFFFFFFFF8000000000000000 := by decide
theorem test_ldu_rv128 : outReg 4 (step1 .rv128 0x0004F203#32 0
    [0#8, 0#8, 0#8, 0#8, 0#8, 0#8, 0#8, 0x80#8]) = some 0x8000000000000000 := by decide
theorem test_ldu_rv64 : outFault (step1 .rv64 0x0004F203#32 0 []) =
    some (.trap (.illegalInstruction 0x0004F203#32) 0x100) := by decide
theorem test_lq_rv128 : outReg 4 (step1 .rv128 0x0004A20F#32 0
    [0x00#8, 0x11#8, 0x22#8, 0x33#8, 0x44#8, 0x55#8, 0x66#8, 0x77#8,
     0x88#8, 0x99#8, 0xAA#8, 0xBB#8, 0xCC#8, 0xDD#8, 0xEE#8, 0xFF#8]) =
    some 0xFFEEDDCCBBAA99887766554433221100 := by decide
theorem test_lq_rv64 : outFault (step1 .rv64 0x0004A20F#32 0 []) =
    some (.trap (.illegalInstruction 0x0004A20F#32) 0x100) := by decide

/-! ### One step of each store (95_test_vectors.md section 2.4) -/

/-- Sixteen bytes EE, as the section's start state. -/
def ee : List Byte := List.replicate 16 0xEE#8

theorem test_sb : outBytes 0x1000 2 (step1 .rv32 0x00448023#32 0x8899AABB ee) = some [0xBB#8, 0xEE#8] := by decide
theorem test_sh_misaligned : outBytes 0x1000 4 (step1 .rv32 0x004490A3#32 0x8899AABB ee) =
    some [0xEE#8, 0xBB#8, 0xAA#8, 0xEE#8] := by decide
theorem test_sw_rv64 : outBytes 0x1000 5 (step1 .rv64 0x0044A023#32 0x012345678899AABB ee) =
    some [0xBB#8, 0xAA#8, 0x99#8, 0x88#8, 0xEE#8] := by decide
theorem test_sw_base_is_data : outBytes 0x1000 5 (step1 .rv32 0x0094A023#32 0 ee) =
    some [0x00#8, 0x10#8, 0x00#8, 0x00#8, 0xEE#8] := by decide
theorem test_sd_rv128 : outBytes 0x1000 9 (step1 .rv128 0x0044B023#32 0x0123456789ABCDEFFEDCBA9876543210 ee) =
    some [0x10#8, 0x32#8, 0x54#8, 0x76#8, 0x98#8, 0xBA#8, 0xDC#8, 0xFE#8, 0xEE#8] := by decide
theorem test_sd_rv32 : outFault (step1 .rv32 0x0044B023#32 0 ee) =
    some (.trap (.illegalInstruction 0x0044B023#32) 0x100) := by decide
theorem test_sq_rv128 : outBytes 0x1000 16 (step1 .rv128 0x0044C023#32 0xFFEEDDCCBBAA99887766554433221100 ee) =
    some [0x00#8, 0x11#8, 0x22#8, 0x33#8, 0x44#8, 0x55#8, 0x66#8, 0x77#8,
      0x88#8, 0x99#8, 0xAA#8, 0xBB#8, 0xCC#8, 0xDD#8, 0xEE#8, 0xFF#8] := by decide
theorem test_sq_rv64 : outFault (step1 .rv64 0x0044C023#32 0 ee) =
    some (.trap (.illegalInstruction 0x0044C023#32) 0x100) := by decide

/-! ### Addresses, x0, exceptions, PROGRAM, the end of a run (sections 2.5, 2.6; R60, R110, R157, R177) -/

/-- LW x6,-2(x0) at XLEN = 32 reads on at address 0. -/
theorem test_wrap_at_the_top : outReg 6 (step (state .rv32 allValid [0xFFE02303#32] []
    [(0, 0xA0#8), (1, 0xA1#8), (0xFFFFFFFE, 0xFE#8), (0xFFFFFFFF, 0xFF#8)])) = some 0xA1A0FFFE := by decide

/-- LBU x4,1(x9) with x9 all ones: the carry is discarded. -/
theorem test_carry_is_discarded :
    outReg 4 (step (state .rv32 allValid [0x0014C203#32] [(9, 0xFFFFFFFF)] [(0, 0xA0#8)])) = some 0xA0 := by decide

/-- LW x10,0(x10): the address uses the old value (R111). -/
theorem test_destination_is_base : outReg 10 (step (state .rv32 allValid [0x00052503#32] [(10, 0x3000)]
    (bytesFrom 0x3000 [0x08#8, 0x30#8, 0x00#8, 0x00#8]))) = some 0x3008 := by decide

/-- The start state of section 2.6, with one word. -/
def faulty (inst : InstWord) : State :=
  state .rv32 [{ base := 0x1000, size := 4, read := true, write := true }] [inst]
    [(5, 0x1000), (6, 0x8899AABB), (8, 0x55)] (bytesFrom 0x1000 [1#8, 2#8, 3#8, 4#8])

theorem test_sb_completes : outBytes 0x1003 1 (step (faulty 0x006281A3#32)) = some [0xBB#8] := by decide
theorem test_sh_faults : outFault (step (faulty 0x006291A3#32)) = some (.trap (.storeAccessFault 0x1003) 0x100) := by
  decide
theorem test_lw_faults : outFault (step (faulty 0x0012A403#32)) = some (.trap (.loadAccessFault 0x1001) 0x100) := by
  decide
theorem test_lw_x0_faults : outFault (step (faulty 0x0082A003#32)) = some (.trap (.loadAccessFault 0x1008) 0x100) := by
  decide
theorem test_ld_is_illegal_first : outFault (step (faulty 0x0002B403#32)) =
    some (.trap (.illegalInstruction 0x0002B403#32) 0x100) := by decide
theorem test_lh_misaligned_completes : outReg 8 (step (faulty 0x00129403#32)) = some 0x302 := by decide
theorem test_lw_x0_discards : outReg 0 (step1 .rv32 0x0004A003#32 0 ee) = some 0 := by decide
theorem test_pc_advances : outPc (step1 .rv32 0x0004A003#32 0 ee) = some 0x104 := by decide

/-- A store to the program's own word is refused (R60); so is a word of no row (R85). -/
theorem test_store_to_program : outRefusal (step (state .rv32 allValid [0x0044A023#32] [(9, 0xFD)] [])) =
    some (.storeToProgram 0xFD 0x100) := by decide
theorem test_unknown_word : outRefusal (step (state .rv32 allValid [0x00000013#32] [] [])) =
    some (.unknownWord 0x00000013#32 0x100) := by decide
/-- R85: an unmatched word that the pc does not reach, after the LW at the pc. -/
theorem test_unknown_word_elsewhere : outRefusal (step (state .rv32 allValid [0x0004A203#32, 0x00000013#32] [(9, 0x1000)]
    (bytesFrom 0x1000 [1#8, 2#8, 3#8, 4#8]))) = some (.unknownWordInProgram 0x00000013#32 0x100) := by decide
theorem test_byte_without_value : outFault (step (state .rv32 allValid [0x0004A203#32] [(9, 0x1000)] [])) =
    some (.unspecifiedByte 0x1000 0x100) := by decide
theorem test_reset_is_at_the_end : outPc (step State.reset) = some 0x1000 := by decide
theorem test_first_step_after_reset :
    outBytes 1234 1 (step (State.reset.withFetchWord 32 0x4C448923)) = some [0#8] := by decide

/-! ### The assembler (R88, R24, R89) -/

theorem test_asm_abi_names :
    assemble Encodings.default "lw a0, -4(sp)".toList = .ok 0xFFC12503#32 := by decide
theorem test_asm_offset_range :
    assemble Encodings.default "LB x4,2048(x9)".toList = .error .offsetRange := by decide
theorem test_asm_no_such_register :
    assemble Encodings.default "LB x32,0(x9)".toList = .error .noSuchRegister := by decide
theorem test_asm_hex_and_omitted_offset :
    assemble Encodings.default "sb x4,0x4d2(x9)".toList = .ok 0x4C448923#32 ∧
      assemble Encodings.default "lw x0,(x10)".toList = .ok 0x00052003#32 := by decide
theorem test_asm_not_a_line : assemble Encodings.default "LB x4,1234".toList = .error .notALine := by decide

/-! ### Witnesses: for each statement with hypotheses, what meets them -/

/-- A 128-bit state with sixteen bytes at 0x2000, x9 = 0x2000, x4 with a distinct value, PROGRAM of two words at 0x100. -/
def wide : State :=
  state .rv128 allValid [0x0004A203#32, 0x0044A023#32] [(9, 0x2000), (4, 0xFFEEDDCCBBAA99887766554433221100)]
    (bytesFrom 0x2000 ee)

/-- The same at 32 bits, with only 0x2000 .. 0x2003 valid and x10 = 0x2004, where nothing is. -/
def narrow (x : Xlen) : State :=
  state x [{ base := 0x2000, size := 4, read := true, write := true }] [0x0004A203#32, 0x0044A023#32]
    [(9, 0x2000), (10, 0x2004), (4, 0x8899AABB)] (bytesFrom 0x2000 ee)

/-- A byte sequence of EE. -/
def eeByte : Nat → Byte := fun _ => 0xEE#8

theorem witness_DecodeOfEncode : Encodings.default.wf = true ∧
    Encodings.wf { Encodings.default with lq := ⟨majorMiscMem, 0b101#3⟩ } = true := by decide
theorem witness_EncodeOfDecode : decode Encodings.default 0x4D24A20F#32 = .ok (.lq 4 9 1234) := rfl
theorem witness_RowsAreDistinct : Encodings.default.wf = true := by decide
theorem witness_UnmatchedWordsAreRefused :
    (state .rv32 allValid [0x00000013#32] [] []).fetch = .word 0x00000013#32 ∧
    (∀ r ∈ opcodeTable Encodings.default, r.code.matchWord ≠ 0x00000013#32 &&& 0x0000707F#32) :=
  ⟨rfl, by decide⟩

/-- PROGRAM with a word that matches no row, not the one at the pc. -/
def foreign : State :=
  { wide with plat := { wide.plat with program := { base := 0x100, words := [0x0004A203#32, 0x00000013#32] } } }

theorem witness_UnmatchedWordsAreRefused_elsewhere : 0x00000013#32 ∈ foreign.plat.program.words ∧
    step foreign = .refused (.unknownWordInProgram 0x00000013#32 0x100) := ⟨by decide, rfl⟩

/-- The five conditions of the last clause, each met by a word that is fetched. -/
theorem witness_UnmatchedWordsAreRefused_rows :
    ((0x00005023#32).extractLsb' 0 7 = 0b0100011#7 ∧ 5 ≤ ((0x00005023#32).extractLsb' 12 3).toNat) ∧
    ((0x0000000F#32).extractLsb' 0 7 = 0b0001111#7 ∧ (0x0000000F#32).extractLsb' 12 3 ≠ 0b010#3) ∧
    (0x00000002#32).extractLsb' 0 2 ≠ 0b11#2 := by decide
theorem witness_UnmatchedWordsAreRefused_fetch :
    [0x00005023#32, 0x0000000F#32, 0x00000002#32, 0#32, 0xFFFFFFFF#32].map
      (fun w => decide ((state .rv32 allValid [w] [] []).fetch = .word w)) = [true, true, true, true, true] := by decide
theorem witness_OffsetsSignExtendTheirFields : (0 < Xlen.rv32.bits ∧ 31 < Xlen.rv32.bits) ∧ 127 < Xlen.rv128.bits := by
  decide
theorem witness_WordsLieLittleEndian : (wordBytes 0x4D248203#32)[0]? = some 0x03#8 ∧
    (wordBytes 0x4D248203#32)[3]? = some 0x4D#8 ∧ 0 < 4 ∧ 3 < 4 := by decide
theorem witness_DecodeBytesReadsTheFirstWord : Encodings.default.wf = true := by decide
theorem witness_StepRunsDecodedInstruction : wide.fetch = .word 0x0004A203#32 ∧
    decode wide.plat.enc 0x0004A203#32 = .ok (.lw 4 9 0) ∧
    wide.ProgramHasMeaning := ⟨by decide, rfl, programHasMeaning_iff.2 rfl⟩
theorem witness_StepRunsDecodedInstruction_refused : foreign.fetch = .word 0x0004A203#32 ∧
    decode foreign.plat.enc 0x0004A203#32 = .ok (.lw 4 9 0) ∧ ¬ foreign.ProgramHasMeaning :=
  ⟨by decide, rfl, fun h => by obtain ⟨i, hi⟩ := h 0x00000013#32 (by decide); cases hi⟩
theorem witness_FetchReadsTheProgramWord : wide.plat.program.wf wide.xlen = true ∧
    wide.plat.program.words[0]? = some 0x0004A203#32 ∧
    wide.pcNat = (wide.plat.program.base + 4 * 0) % wide.space := by decide
theorem witness_FetchReadsTheProgramWord_last : wide.plat.program.words[1]? = some 0x0044A023#32 ∧
    wide.advancePc.pcNat = (wide.plat.program.base + 4 * 1) % wide.space := by decide

/-- A state with the pc outside PROGRAM, and one with an empty PROGRAM elsewhere. -/
def astray : State := { wide with pc := 0xFC }

theorem witness_FetchOutsideProgramFaults : astray.plat.program.wf astray.xlen = true ∧ astray.ProgramHasMeaning ∧
    (∀ k ≤ astray.plat.program.words.length, astray.pcNat ≠ (astray.plat.program.base + 4 * k) % astray.space) :=
  ⟨by decide, programHasMeaning_iff.2 rfl, by decide⟩
theorem witness_FetchOutsideProgramFaults_run : wide.plat.program.wf wide.xlen = true ∧
    0 ≤ wide.plat.program.words.length ∧ wide.pcNat = (wide.plat.program.base + 4 * 0) % wide.space ∧
    ∃ t, runFor 1 wide = .next t := ⟨by decide, by decide, by decide, _, rfl⟩
theorem witness_RunIsStraightLineAndEnds_end :
    State.reset.plat.program.wf State.reset.xlen = true ∧ State.reset.ProgramHasMeaning ∧ State.reset.AtEnd :=
  ⟨by decide, programHasMeaning_iff.2 rfl, rfl⟩
theorem witness_RunIsStraightLineAndEnds : wide.plat.program.wf wide.xlen = true ∧
    0 + 2 ≤ wide.plat.program.words.length ∧ wide.pcNat = (wide.plat.program.base + 4 * 0) % wide.space ∧
    ∃ t, runFor 2 wide = .next t := ⟨by decide, by decide, by decide, _, rfl⟩
theorem witness_PcAdvancesByFour : (∃ t, exec (.lw 4 9 0) wide = .next t) ∧ (∃ t, step wide = .next t) ∧
    step astray = .fault (.trap (.instructionAccessFault 0xFC) 0xFC) := ⟨⟨_, rfl⟩, ⟨_, rfl⟩, rfl⟩
theorem witness_PcAdvancesByFour_noValue :
    step (State.reset.withFetchWord 32 0x00000003) = .fault (.unspecifiedByte 0 0x1000) := rfl
theorem witness_StepKeepsTheParameters : ∃ t, step wide = .next t := ⟨_, rfl⟩
theorem witness_StepKeepsInvariant : wide.Inv ∧ ∃ t, step wide.advancePc = .next t :=
  ⟨⟨by decide, by decide, by decide, by decide, by decide⟩, _, rfl⟩
theorem witness_ResetMeetsInvariant : Params.default.wf = true := by decide
theorem witness_EffectiveAddressIsTheModularSum : (∃ t, exec (.lw 4 9 0) wide = .next t) ∧
    (Instr.lw 4 9 0).data ≠ (Instr.lw 4 9 0).base := ⟨⟨_, rfl⟩, by decide⟩
theorem witness_AccessContinuesAtZero : 16 ≤ 16 ∧ 15 < 16 ∧
    (accessAddrs (w := State.reset.xlen.bits) (BitVec.ofNat _ (2 ^ 128 - 1)) 16)[15]? = some 14 := by decide
theorem witness_ProgramRangeIsItsWords : wide.plat.program.wf wide.xlen = true ∧ 0x107 < wide.space ∧
    wide.inProgram 0x107 = true ∧ wide.inProgram 0x108 = false ∧ wide.inProgram 0xFF = false := by decide
theorem witness_StoringTwiceIsStoringOnce : wide.mem.wf = true ∧ 16 ≤ 16 := by decide
theorem witness_AccessEventsTouchEachByteOnce : 0 < 4 ∧ 4 ≤ 16 ∧ (0x2000#128).toNat % 4 = 0 ∧
    (0x2001#128).toNat % 4 ≠ 0 := by decide
theorem witness_StoreEventsInAnyOrderLeaveTheSameMemory : wide.mem.wf = true ∧ 2 ≤ 16 ∧
    (storeEvents 0x2001#128 2 0xBBAA#16).reverse.Perm (storeEvents 0x2001#128 2 0xBBAA#16) ∧
    (storeEvents 0x2001#128 2 0xBBAA#16).length = 2 := ⟨by decide, by decide, List.reverse_perm _, by decide⟩

/-- What the completion and fault clauses of a load of `n` bytes need, on `wide` and on `narrow`. -/
def LoadHypotheses (n minXlen : Nat) : Prop :=
  Encodings.default.wf = true ∧ minXlen ≤ wide.xlen.bits ∧
  (∀ j < n, wide.memValid (byteAddr (wide.effAddr 9 0) j) .read = true) ∧
  (∀ j < n, wide.mem.get? (byteAddr (wide.effAddr 9 0) j) = some (eeByte j)) ∧
  (∃ x, minXlen ≤ (narrow x).xlen.bits ∧
    ∃ j < n, (narrow x).memValid (byteAddr ((narrow x).effAddr 10 0) j) .read = false) ∧
  (wide.effAddr 9 0).toNat % n = 0

/-- What the clauses of a store need. -/
def StoreHypotheses (n minXlen : Nat) : Prop :=
  Encodings.default.wf = true ∧ minXlen ≤ wide.xlen.bits ∧
  (∀ j < n, wide.inProgram (byteAddr (wide.effAddr 9 0) j) = false) ∧
  (∀ j < n, wide.memValid (byteAddr (wide.effAddr 9 0) j) .write = true) ∧
  (∃ x, minXlen ≤ (narrow x).xlen.bits ∧
    (∀ j < n, (narrow x).inProgram (byteAddr ((narrow x).effAddr 10 0) j) = false) ∧
    ∃ j < n, (narrow x).memValid (byteAddr ((narrow x).effAddr 10 0) j) .write = false) ∧
  (wide.effAddr 9 0).toNat % n = 0

theorem loadHypotheses_1_32 : LoadHypotheses 1 32 :=
  ⟨by decide, by decide, by decide, by decide, ⟨.rv32, by decide, 0, by decide, by decide⟩, by decide⟩
theorem loadHypotheses_2_32 : LoadHypotheses 2 32 :=
  ⟨by decide, by decide, by decide, by decide, ⟨.rv32, by decide, 0, by decide, by decide⟩, by decide⟩
theorem loadHypotheses_4_32 : LoadHypotheses 4 32 :=
  ⟨by decide, by decide, by decide, by decide, ⟨.rv32, by decide, 0, by decide, by decide⟩, by decide⟩

theorem witness_LoadByteSigned : LoadHypotheses 1 32 := loadHypotheses_1_32
theorem witness_LoadByteUnsigned : LoadHypotheses 1 32 := loadHypotheses_1_32
theorem witness_LoadHalfwordSigned : LoadHypotheses 2 32 := loadHypotheses_2_32
theorem witness_LoadHalfwordUnsigned : LoadHypotheses 2 32 := loadHypotheses_2_32
theorem witness_LoadWordSigned : LoadHypotheses 4 32 := loadHypotheses_4_32
theorem witness_LoadWordUnsigned : LoadHypotheses 4 64 ∧ (narrow .rv32).xlen.bits < 64 :=
  ⟨⟨by decide, by decide, by decide, by decide, ⟨.rv64, by decide, 0, by decide, by decide⟩, by decide⟩, by decide⟩
theorem witness_LoadDoublewordSigned : LoadHypotheses 8 64 ∧ (narrow .rv32).xlen.bits < 64 :=
  ⟨⟨by decide, by decide, by decide, by decide, ⟨.rv64, by decide, 0, by decide, by decide⟩, by decide⟩, by decide⟩
theorem witness_LoadDoublewordUnsigned : LoadHypotheses 8 128 ∧ (narrow .rv64).xlen.bits < 128 :=
  ⟨⟨by decide, by decide, by decide, by decide, ⟨.rv128, by decide, 0, by decide, by decide⟩, by decide⟩, by decide⟩
theorem witness_LoadQuadword : LoadHypotheses 16 128 ∧ (narrow .rv64).xlen.bits < 128 :=
  ⟨⟨by decide, by decide, by decide, by decide, ⟨.rv128, by decide, 0, by decide, by decide⟩, by decide⟩, by decide⟩
theorem witness_StoreByte : StoreHypotheses 1 32 :=
  ⟨by decide, by decide, by decide, by decide, ⟨.rv32, by decide, by decide, 0, by decide, by decide⟩, by decide⟩
theorem witness_StoreHalfword : StoreHypotheses 2 32 :=
  ⟨by decide, by decide, by decide, by decide, ⟨.rv32, by decide, by decide, 0, by decide, by decide⟩, by decide⟩
theorem witness_StoreWord : StoreHypotheses 4 32 :=
  ⟨by decide, by decide, by decide, by decide, ⟨.rv32, by decide, by decide, 0, by decide, by decide⟩, by decide⟩
theorem witness_StoreDoubleword : StoreHypotheses 8 64 ∧ (narrow .rv32).xlen.bits < 64 :=
  ⟨⟨by decide, by decide, by decide, by decide, ⟨.rv64, by decide, by decide, 0, by decide, by decide⟩, by decide⟩,
    by decide⟩
theorem witness_StoreQuadword : StoreHypotheses 16 128 ∧ (narrow .rv64).xlen.bits < 128 :=
  ⟨⟨by decide, by decide, by decide, by decide, ⟨.rv128, by decide, by decide, 0, by decide, by decide⟩, by decide⟩,
    by decide⟩

theorem witness_UnavailableInstructionIsIllegal : (narrow .rv32).xlen = .rv32 ∧ (narrow .rv64).xlen = .rv64 ∧
    (faulty 0x0002B403#32).fetch = .word 0x0002B403#32 ∧ (faulty 0x0002B403#32).ProgramHasMeaning ∧
    decode Encodings.default 0x0002B403#32 = .ok (.ld 8 5 0) ∧
    (Instr.ld 8 5 0).availableAt (faulty 0x0002B403#32).xlen = false :=
  ⟨by decide, by decide, by decide, programHasMeaning_iff.2 rfl, rfl, by decide⟩
theorem witness_LoadOfAnInvalidByteFaults : (Instr.lh 0 9 3).isLoad = true ∧
    (Instr.lh 0 9 3).availableAt (narrow .rv32).xlen = true ∧
    ∃ j < (Instr.lh 0 9 3).bytes,
      (narrow .rv32).memValid (byteAddr ((narrow .rv32).addrOf (.lh 0 9 3)) j) .read = false :=
  ⟨by decide, by decide, 1, by decide, by decide⟩
theorem witness_StoreOfAnInvalidByteFaults : (Instr.sh 4 9 3).isLoad = false ∧
    (Instr.sh 4 9 3).availableAt (narrow .rv32).xlen = true ∧
    (∀ j < (Instr.sh 4 9 3).bytes,
      (narrow .rv32).inProgram (byteAddr ((narrow .rv32).addrOf (.sh 4 9 3)) j) = false) ∧
    ∃ j < (Instr.sh 4 9 3).bytes,
      (narrow .rv32).memValid (byteAddr ((narrow .rv32).addrOf (.sh 4 9 3)) j) .write = false :=
  ⟨by decide, by decide, by decide, 1, by decide, by decide⟩
theorem witness_StoreIntoProgramIsRefused : (Instr.sw 4 0 0xFD).isLoad = false ∧
    (Instr.sw 4 0 0xFD).availableAt wide.xlen = true ∧ wide.plat.program.wf wide.xlen = true ∧
    3 < (Instr.sw 4 0 0xFD).bytes ∧ 0 < 4 * wide.plat.program.words.length ∧
    byteAddr (wide.addrOf (.sw 4 0 0xFD)) 3 = (wide.plat.program.base + 0) % wide.space ∧
    (Instr.lw 4 0 0x100).isLoad = true := by decide
theorem witness_LoadOfAByteWithoutAValueFaults : (Instr.lw 4 9 13).isLoad = true ∧
    (Instr.lw 4 9 13).availableAt wide.xlen = true ∧
    (∀ j < (Instr.lw 4 9 13).bytes, wide.memValid (byteAddr (wide.addrOf (.lw 4 9 13)) j) .read = true) ∧
    ∃ j < (Instr.lw 4 9 13).bytes, wide.mem.get? (byteAddr (wide.addrOf (.lw 4 9 13)) j) = none :=
  ⟨by decide, by decide, by decide, 3, by decide, by decide⟩
theorem witness_StopsOnlyAsTheRulesSay :
    exec (.lh 4 9 3) (narrow .rv32) = .fault (.trap (.loadAccessFault 0x2003) 0x100) ∧
    exec (.sw 4 0 0xFD) wide = .refused (.storeToProgram 0xFD 0x100) := ⟨rfl, rfl⟩
theorem witness_StopsOnlyAsTheRulesSay_faults :
    exec (.sh 4 9 3) (narrow .rv32) = .fault (.trap (.storeAccessFault 0x2003) 0x100) ∧
    exec (.lh 4 9 15) wide = .fault (.unspecifiedByte 0x200F 0x100) ∧
    exec (.lwu 4 9 0) (narrow .rv32) = .fault (.trap (.illegalInstruction 0x0004E203#32) 0x100) := ⟨rfl, rfl, rfl⟩
theorem witness_EveryAccessCompletesWhateverItsAlignment :
    ((Instr.lq 4 9 0).isLoad = true ∧ (Instr.lq 4 9 0).availableAt wide.xlen = true ∧
      (∀ j < 16, wide.memValid (byteAddr (wide.addrOf (.lq 4 9 0)) j) .read = true) ∧
      (∀ j < 16, wide.mem.get? (byteAddr (wide.addrOf (.lq 4 9 0)) j) = some (eeByte j))) ∧
    ((Instr.sq 4 9 1).isLoad = false ∧ (Instr.sq 4 9 1).availableAt wide.xlen = true ∧
      (∀ j < 16, wide.inProgram (byteAddr (wide.addrOf (.sq 4 9 1)) j) = false) ∧
      ∀ j < 16, wide.memValid (byteAddr (wide.addrOf (.sq 4 9 1)) j) .write = true) := by decide
theorem witness_InstructionWritesOnlyWhatItsRuleSays : (∃ t, exec (.lw 4 9 1) wide = .next t) ∧
    (∃ t, exec (.sw 4 9 1) wide = .next t) ∧ (9 : RegIdx) ∉ (Instr.lw 4 9 1).writes ∧
    0x2000 ∉ accessAddrs (wide.addrOf (.sw 4 9 1)) 4 := ⟨⟨_, rfl⟩, ⟨_, rfl⟩, by decide, by decide⟩
theorem witness_RegistersNotReadDoNotMatter : (4 : RegIdx) ∉ (Instr.lw 4 9 1).reads ∧
    (∃ t, exec (.lw 4 9 1) wide = .next t) ∧
    (10 : RegIdx) ∉ (Instr.lh 4 9 3).reads ∧
    exec (.lh 4 9 3) (narrow .rv32) = .fault (.trap (.loadAccessFault 0x2003) 0x100) ∧
    (9 : RegIdx) ∉ (Instr.sw 4 0 0xFD).reads ∧
    exec (.sw 4 0 0xFD) wide = .refused (.storeToProgram 0xFD 0x100) :=
  ⟨by decide, ⟨_, rfl⟩, by decide, rfl, by decide, rfl⟩
theorem witness_AccessesTouchExactlyTheirBytes : (Instr.lw 4 9 1).isLoad = true ∧
    (∀ j < 4, Memory.get? (bytesFrom 0x2001 [0xEE#8, 0xEE#8, 0xEE#8, 0xEE#8]) (byteAddr (wide.addrOf (.lw 4 9 1)) j) =
      wide.mem.get? (byteAddr (wide.addrOf (.lw 4 9 1)) j)) ∧ (Instr.sw 4 9 1).isLoad = false := by decide
theorem witness_LoadToZeroRegisterIsPerformedAndDiscarded : (Instr.lw 0 9 1).isLoad = true ∧
    (Instr.lw 0 9 1).data = 0 ∧ (Instr.lw 0 9 1).availableAt wide.xlen = true ∧
    ∃ t, exec (.lw 0 9 1) wide = .next t := ⟨by decide, by decide, by decide, _, rfl⟩
theorem witness_LoadToZeroRegisterIsPerformedAndDiscarded_invalid : (Instr.lw 0 0 0).availableAt (narrow .rv32).xlen = true ∧
    ∃ j < (Instr.lw 0 0 0).bytes, (narrow .rv32).memValid (byteAddr ((narrow .rv32).addrOf (.lw 0 0 0)) j) .read = false :=
  ⟨by decide, 0, by decide, by decide⟩
theorem witness_LoadAfterStoreReturnsTheStoredBytes : ∃ t, exec (.sq 4 9 0) wide = .next t ∧
    (Instr.sq 4 9 0).isLoad = false ∧ (Instr.lhu 5 9 14).isLoad = true ∧
    14 + (Instr.lhu 5 9 14).bytes ≤ (Instr.sq 4 9 0).bytes ∧ (Instr.lhu 5 9 14).availableAt wide.xlen = true ∧
    (t.addrOf (.lhu 5 9 14)).toNat = ((wide.addrOf (.sq 4 9 0)).toNat + 14) % wide.space ∧
    ∀ k < 2, wide.memValid (((wide.addrOf (.sq 4 9 0)).toNat + 14 + k) % wide.space) .read = true :=
  ⟨_, rfl, by decide, by decide, by decide, by decide, by decide, by decide⟩
theorem witness_AssembledLineDecodesToItself :
    Encodings.default.wf = true ∧ (31 ≤ 31 ∧ 0 ≤ 31 ∧ (-2048 : Int) ≤ -2048 ∧ (2047 : Int) ≤ 2047) ∧
    ((-2049 : Int) < -2048 ∧ (2047 : Int) < 2048) := by decide

end Sys2Proof.Tests
end

section
/-! The state (section 2): what a register reads after a write. -/
namespace Sys2Proof.Machine

/-- Settles O20: `x0` is not backed by the register file, so it reads 0 and a write of it is no update; what any register
reads after a write is the rule of the state `regNat_writeReg`. -/
theorem registerReadsBackItsWrite : Obligations.RegisterReadsBackItsWrite := by
  unfold Obligations.RegisterReadsBackItsWrite
  intro s r v
  exact ⟨regNat_zero s, writeReg_zero s v, fun q => regNat_writeReg s r q v⟩

end Sys2Proof.Machine
end

section
/-! What an access reads and writes (R42): another memory has no bearing on the address, on validity or on PROGRAM's
range, so a load sees it through the bytes of its access only, and a store does not see it at all. -/
namespace Sys2Proof.Machine

/-- A load's register and pc do not depend on the memory around it. -/
theorem afterLoad_withMem (i : Instr) (s : State) (m : Memory) (v : BitVec (8 * i.bytes)) :
    afterLoad i (s.withMem m) v = (afterLoad i s v).withMem m := rfl

/-- The addresses and bytes that a store writes: none of them comes from memory. -/
def storeWrites (i : Instr) (s : State) : List (Nat × Byte) :=
  storeBytes (s.addrOf i) i.bytes (s.storeValue i.data i.bytes)

theorem map_fst_storeWrites (i : Instr) (s : State) :
    (storeWrites i s).map Prod.fst = accessAddrs (s.addrOf i) i.bytes :=
  map_fst_storeBytes ..

/-- After a store into any memory: its writes over that memory, and all else as over the old one. -/
theorem afterStore_withMem (i : Instr) (s : State) (m : Memory) :
    afterStore i (s.withMem m) = (afterStore i s).withMem (m.setAll (storeWrites i s)) := rfl

/-- A load over a memory with the same bytes at its addresses ends the same way, and keeps that memory. -/
theorem exec_load_withMem {i : Instr} {s : State} {m : Memory} (hl : i.isLoad = true)
    (h : ∀ j < i.bytes, m.get? (byteAddr (s.addrOf i) j) = s.mem.get? (byteAddr (s.addrOf i) j)) :
    exec i (s.withMem m) = withMemory m (exec i s) := by
  have hbytes : (s.withMem m).bytesAt (s.addrOf i) i.bytes = s.bytesAt (s.addrOf i) i.bytes := bytesAt_withMem h
  cases ha : i.availableAt s.xlen with
  | false => rw [exec_unavailable ha, exec_unavailable (s := s.withMem m) ha]; rfl
  | true =>
    cases hv : s.admits (s.addrOf i) i.bytes .read with
    | false => rw [exec_load_invalid hl ha hv, exec_load_invalid (s := s.withMem m) hl ha hv]; rfl
    | true =>
      cases hb : s.bytesAt (s.addrOf i) i.bytes with
      | none =>
        rw [exec_load_noValue hl ha hv hb, exec_load_noValue (s := s.withMem m) hl ha hv (hbytes.trans hb)]; rfl
      | some v =>
        rw [exec_load_value hl ha hv hb, exec_load_value (s := s.withMem m) hl ha hv (hbytes.trans hb),
          afterLoad_withMem]; rfl

/-- A store ends the same way over every memory: with its writes over that memory, or with one fault or refusal. -/
theorem exec_store_withMem {i : Instr} (hl : i.isLoad = false) (s : State) :
    (∀ m, exec i (s.withMem m) = .next ((afterStore i s).withMem (m.setAll (storeWrites i s)))) ∨
    (∃ f, ∀ m, exec i (s.withMem m) = .fault f) ∨ ∃ r, ∀ m, exec i (s.withMem m) = .refused r := by
  cases ha : i.availableAt s.xlen with
  | false => exact .inr (.inl ⟨.trap (.illegalInstruction (encode s.plat.enc i)) s.pcNat,
      fun m => exec_unavailable (s := s.withMem m) ha⟩)
  | true =>
    cases hp : s.touchesProgram (s.addrOf i) i.bytes with
    | true => exact .inr (.inr ⟨.storeToProgram (s.addrOf i).toNat s.pcNat,
        fun m => exec_store_program (s := s.withMem m) hl ha hp⟩)
    | false =>
      cases hv : s.admits (s.addrOf i) i.bytes .write with
      | false => exact .inr (.inl ⟨.trap (.storeAccessFault (s.addrOf i).toNat) s.pcNat,
          fun m => exec_store_invalid (s := s.withMem m) hl ha hp hv⟩)
      | true =>
        exact .inl fun m => (exec_store_valid (s := s.withMem m) hl ha hp hv).trans
          (congrArg _ (afterStore_withMem i s m))

/-- Settles O50: the numbers of bytes are the table of the fourteen; a load and a store over another memory are
`exec_load_withMem` and `exec_store_withMem`. -/
theorem accessesTouchExactlyTheirBytes : Obligations.AccessesTouchExactlyTheirBytes := by
  unfold Obligations.AccessesTouchExactlyTheirBytes
  refine ⟨fun r b imm => rfl, fun i s m hl h => exec_load_withMem hl h, fun i s hl => ?_⟩
  exact (exec_store_withMem hl s).imp_left fun h => ⟨afterStore i s, storeWrites i s, map_fst_storeWrites i s, h⟩

end Sys2Proof.Machine
end

section
/-! The immediates as offsets (R75, R76): sign extension copies bit 11, and each bit of an immediate is one bit of the
word. -/
namespace Sys2Proof.Machine

/-- Bit `k` of an offset is bit `k` of the immediate, and bit 11 from there up: nothing is scaled. -/
theorem getLsbD_signedOffset (x : Xlen) (imm : Imm12) {k : Nat} (hk : k < x.bits) :
    (signedOffset x imm).getLsbD k = if k < 11 then imm.getLsbD k else imm.getLsbD 11 := by
  have hmsb : imm.msb = imm.getLsbD 11 := rfl
  rw [signedOffset, BitVec.getLsbD_signExtend, hmsb, decide_eq_true hk, Bool.true_and]
  rcases Nat.lt_trichotomy k 11 with h | rfl | h
  · rw [if_pos h, if_pos (by omega)]
  · rfl
  · rw [if_neg (by omega), if_neg (by omega)]

/-- The I-type immediate is bits 31 to 20 of the word (R75). -/
theorem getLsbD_fieldImmI (inst : InstWord) {k : Nat} (hk : k < 12) :
    (fieldImmI inst).getLsbD k = inst.getLsbD (20 + k) := by
  rw [fieldImmI, BitVec.getLsbD_extractLsb', decide_eq_true hk, Bool.true_and]

/-- The S-type immediate is bits 11 to 7 of the word below bit 5, and bits 31 to 25 from there up (R76). -/
theorem getLsbD_fieldImmS (inst : InstWord) {k : Nat} (hk : k < 12) :
    (fieldImmS inst).getLsbD k = if k < 5 then inst.getLsbD (7 + k) else inst.getLsbD (20 + k) := by
  rw [fieldImmS, BitVec.getLsbD_append]
  by_cases h : k < 5
  · simp [h]
  · have hpos : 25 + (k - 5) = 20 + k := by omega
    have hlt : k - 5 < 7 := by omega
    simp [h, hpos, hlt]

/-- Settles O8: a bit of the offset is a bit of the immediate (`getLsbD_signedOffset`), which is a bit of the word. -/
theorem offsetsSignExtendTheirFields : Obligations.OffsetsSignExtendTheirFields := by
  unfold Obligations.OffsetsSignExtendTheirFields
  intro x inst k hk
  rw [getLsbD_signedOffset x _ hk, getLsbD_signedOffset x _ hk, getLsbD_fieldImmI inst (by omega : 11 < 12),
    getLsbD_fieldImmS inst (by omega : 11 < 12)]
  by_cases h : k < 11
  · rw [getLsbD_fieldImmI inst (by omega), getLsbD_fieldImmS inst (by omega)]
    simp [h]
  · have h5 : ¬ k < 5 := by omega
    simp [h, h5]

end Sys2Proof.Machine
end

section
/-! The order of a word's bytes in memory (R71): a word is the little-endian value of its four bytes, so an image reads
back as the words it was made of. -/
namespace Sys2Proof

/-- Byte `j` of a word's image is bits `8j+7 : 8j` of the word. -/
theorem getElem?_wordBytes (inst : InstWord) {j : Nat} (hj : j < 4) :
    (wordBytes inst)[j]? = some (inst.extractLsb' (8 * j) 8) := by
  match j, hj with
  | 0, _ | 1, _ | 2, _ | 3, _ => rfl

/-- A byte of a word as a quotient (R8). -/
theorem extractLsb'_byte (inst : InstWord) (j : Nat) :
    inst.extractLsb' (8 * j) 8 = BitVec.ofNat 8 (inst.toNat / 256 ^ j) := by
  have hpow : (2 : Nat) ^ (8 * j) = 256 ^ j := by rw [pow_mul]; norm_num
  apply BitVec.eq_of_toNat_eq
  rw [extractLsb'_toNat_div, BitVec.toNat_ofNat, hpow]

/-- The little-endian value of a word's bytes is the word. -/
theorem leNat_wordBytes (inst : InstWord) : leNat (wordBytes inst) = inst.toNat := by
  have h := inst.isLt
  simp only [wordBytes, leNat, extractLsb'_toNat_div]
  omega

/-- Reading an image takes its first word off the front. -/
theorem imageWords_wordBytes_append (inst : InstWord) {bs : List Byte} {ws : List InstWord}
    (h : imageWords bs = .ok ws) : imageWords (wordBytes inst ++ bs) = .ok (inst :: ws) := by
  have hword : BitVec.ofNat 32 (leNat (wordBytes inst)) = inst := by
    rw [leNat_wordBytes, BitVec.ofNat_toNat, BitVec.setWidth_eq]
  simp only [wordBytes] at hword
  simp only [wordBytes, List.cons_append, List.nil_append, imageWords, h, hword]

/-- An image reads back as its words: `imageWords` inverts `imageBytes`. -/
theorem imageWords_imageBytes (ws : List InstWord) : imageWords (imageBytes ws) = .ok ws := by
  induction ws with
  | nil => rfl
  | cons inst ws ih => exact imageWords_wordBytes_append inst ih

/-- Settles O9: the bytes of a word by their quotients, the round trip `imageWords_imageBytes`, and R71's example, which
the model evaluates. -/
theorem wordsLieLittleEndian : Obligations.WordsLieLittleEndian := by
  unfold Obligations.WordsLieLittleEndian
  refine ⟨fun inst j hj => ?_, imageWords_imageBytes, by decide⟩
  rw [getElem?_wordBytes inst hj, extractLsb'_byte]

end Sys2Proof
end

section
/-! Instructions that a width does not have (R84): the fault carries the encoding of the instruction, which for a decoded
word is that word. -/
namespace Sys2Proof

/-- An I-type word is rebuilt from its fields (R73). -/
theorem encodeI_of_fields (w : InstWord) :
    encodeI ⟨w.extractLsb' 0 7, w.extractLsb' 12 3⟩ (fieldRd w) (fieldRs1 w) (fieldImmI w) = w := by
  have h := w.isLt
  apply BitVec.eq_of_toNat_eq
  simp only [encodeI_toNat, fieldRd, fieldRs1, fieldImmI, extractLsb'_toNat_div]
  omega

/-- An S-type word is rebuilt from its fields (R74). -/
theorem encodeS_of_fields (w : InstWord) :
    encodeS ⟨w.extractLsb' 0 7, w.extractLsb' 12 3⟩ (fieldRs2 w) (fieldRs1 w) (fieldImmS w) = w := by
  have h := w.isLt
  apply BitVec.eq_of_toNat_eq
  simp only [encodeS_toNat, fieldRs2, fieldRs1, fieldImmS, append_toNat, extractLsb'_toNat_div]
  omega

/-- A row that the decoder finds has the code that stands in the word. -/
theorem code_of_findRow {e : Encodings} {w : InstWord} {r : Row} (h : findRow e w = some r) :
    r.op.code e = ⟨w.extractLsb' 0 7, w.extractLsb' 12 3⟩ := by
  obtain ⟨hr, hmatch⟩ := findRow_eq_some h
  rw [masked_eq] at hmatch
  rw [← matchWord_inj hmatch]
  exact (congrArg Row.code hr).symm

/-- A decoded word is the encoding of its instruction, whatever the three codes are. -/
theorem encode_of_decode {e : Encodings} {w : InstWord} {i : Instr} (h : decode e w = .ok i) : encode e i = w := by
  simp only [decode] at h
  cases hr : findRow e w with
  | none => simp [hr] at h
  | some r =>
    simp only [hr] at h
    cases hf : r.op.format with
    | I =>
      simp only [hf, Except.ok.injEq] at h
      rw [← h, encode_eq, hf, code_of_findRow hr]
      exact encodeI_of_fields w
    | S =>
      simp only [hf, Except.ok.injEq] at h
      rw [← h, encode_eq, hf, code_of_findRow hr]
      exact encodeS_of_fields w

end Sys2Proof

namespace Sys2Proof.Machine

/-- A step of a program that has a meaning performs the instruction fetched. -/
theorem step_eq_exec {s : State} {inst : InstWord} {i : Instr} (hf : s.fetch = .word inst)
    (hd : decode s.plat.enc inst = .ok i) (hm : s.ProgramHasMeaning) : step s = exec i s := by
  simp only [step, hf, hd, ifProgramHasMeaning_of hm]

/-- A step of an unavailable instruction is `IllegalInstruction` with the word fetched (R84, R141). -/
theorem step_unavailable {s : State} {inst : InstWord} {i : Instr} (hf : s.fetch = .word inst)
    (hd : decode s.plat.enc inst = .ok i) (hm : s.ProgramHasMeaning) (ha : i.availableAt s.xlen = false) :
    step s = .fault (.trap (.illegalInstruction inst) s.pcNat) := by
  rw [step_eq_exec hf hd hm, exec_unavailable ha, encode_of_decode hd]

/-- The six instructions that a 32-bit hart does not have (R84). -/
theorem not_availableAt_rv32 {r b : RegIdx} {imm : Imm12} {i : Instr}
    (hi : i ∈ ([.lwu r b imm, .ld r b imm, .sd r b imm, .ldu r b imm, .lq r b imm, .sq r b imm] : List Instr)) :
    i.availableAt .rv32 = false := by
  fin_cases hi <;> rfl

/-- The three instructions that a 64-bit hart does not have (R84). -/
theorem not_availableAt_rv64 {r b : RegIdx} {imm : Imm12} {i : Instr}
    (hi : i ∈ ([.ldu r b imm, .lq r b imm, .sq r b imm] : List Instr)) : i.availableAt .rv64 = false := by
  fin_cases hi <;> rfl

/-- Settles O41: the listed instructions are unavailable at their widths, where `exec_unavailable` gives the outcome; in a
step the word carried is the one fetched, since encoding inverts decoding (`step_unavailable`). -/
theorem unavailableInstructionIsIllegal : Obligations.UnavailableInstructionIsIllegal := by
  unfold Obligations.UnavailableInstructionIsIllegal
  refine ⟨fun s r b imm hx i hi => ?_, fun s r b imm hx i hi => ?_, fun s inst i => step_unavailable⟩
  · exact exec_unavailable (hx ▸ not_availableAt_rv32 hi)
  · exact exec_unavailable (hx ▸ not_availableAt_rv64 hi)

end Sys2Proof.Machine
end

section
/-! The nine loads (R100 to R110). An I-type word decodes to its row's instruction; an available load completes, or faults,
by the bytes of its access alone. The rule of each load is `loadRule_of_row` at its row. -/
namespace Sys2Proof

/-- An I-type word with a load's code decodes to that load with the word's operands (R73, R81). -/
theorem decode_encodeI {e : Encodings} (he : e.wf = true) {op : Op} (hf : op.format = .I) (rd rs1 : RegIdx)
    (imm : Imm12) : decode e (encodeI (op.code e) rd rs1 imm) = .ok (op.instr rd rs1 imm) := by
  obtain ⟨hopcode, hfunct3, hrd, hrs1, himm⟩ := encodeI_fields (op.code e) rd rs1 imm
  simp only [decode, findRow_of_code he hopcode hfunct3, hf, hrd, hrs1, himm]

/-- The I-type rows are the loads. -/
theorem isLoad_instr (op : Op) (d b : RegIdx) (imm : Imm12) :
    (op.instr d b imm).isLoad = decide (op.format = .I) := by
  cases op <;> rfl

/-- A value that fills the register is not extended (R9). -/
theorem sextNat_self (m v : Nat) : sextNat m m v = v := by
  simp [sextNat]

/-- Sign extension with the case of a value that fills the register set apart, as R105 and R107 write it. -/
theorem sextNat_eq_ite (m x v : Nat) : sextNat m x v = if x = m then v else sextNat m x v := by
  split
  · next h => rw [h, sextNat_self]
  · rfl

end Sys2Proof

namespace Sys2Proof.Machine

/-- An instruction's effective address, by its operands (R45). -/
theorem addrOf_instr (s : State) (op : Op) (d b : RegIdx) (imm : Imm12) :
    s.addrOf (op.instr d b imm) = s.effAddr b imm := by
  rw [State.addrOf, instr_base, instr_imm]

/-! ### How an available load ends -/

/-- An aligned access is one event (R50, R52). -/
theorem accessEvents_of_aligned {w : Nat} {addr : BitVec w} {n : Nat} (h : addr.toNat % n = 0) :
    accessEvents addr n = [accessAddrs addr n] := by
  simp [accessEvents, isAligned, h]

/-- The state after a load of bytes with values: their number, extended, in its register, and all else as before. -/
theorem loadLeaves_afterLoad {i : Instr} {s : State} (ha : i.availableAt s.xlen = true) (b : Nat → Byte) :
    LoadLeaves s (afterLoad i s (BitVec.ofNat _ (leSum b i.bytes))) i.data
      (i.loadedNat s.xlen.bits (leSum b i.bytes)) := by
  refine ⟨rfl, rfl, rfl, afterLoad_pcNat i s _, fun r => ?_⟩
  rw [regNat_afterLoad ha, BitVec.toNat_ofNat, Nat.mod_eq_of_lt (leSum_lt_two_pow b i.bytes)]

/-- A load whose bytes are readable and have values completes, whatever its alignment (R44, R100). -/
theorem exec_load_completes {i : Instr} {s : State} {b : Nat → Byte} (hl : i.isLoad = true)
    (ha : i.availableAt s.xlen = true) (hv : ∀ j < i.bytes, s.memValid (byteAddr (s.addrOf i) j) .read = true)
    (hb : s.HoldsBytes (s.addrOf i) i.bytes b) :
    ∃ t, exec i s = .next t ∧ LoadLeaves s t i.data (i.loadedNat s.xlen.bits (leSum b i.bytes)) :=
  ⟨_, exec_load_value hl ha (admits_iff.2 hv) (bytesAt_of_holds hb), loadLeaves_afterLoad ha b⟩

/-- A load with an unreadable byte is a load access fault at its effective address (R142). -/
theorem exec_load_unreadable {i : Instr} {s : State} (hl : i.isLoad = true) (ha : i.availableAt s.xlen = true)
    (hv : ∃ j < i.bytes, s.memValid (byteAddr (s.addrOf i) j) .read = false) :
    exec i s = .fault (.trap (.loadAccessFault (s.addrOf i).toNat) s.pcNat) :=
  exec_load_invalid hl ha (admits_eq_false_iff.2 hv)

/-! ### The rule of a row -/

/-- The rule of a load holds of its row, given the row's access size, least width and extension. -/
theorem loadRule_of_row {op : Op} {n minXlen : Nat} {value : Nat → Nat → Nat} (hf : op.format = .I)
    (hn : ∀ rd rs1 imm, (op.instr rd rs1 imm).bytes = n)
    (hx : ∀ rd rs1 imm, leastXlen (op.instr rd rs1 imm) = minXlen)
    (hvalue : ∀ rd rs1 imm x v, (op.instr rd rs1 imm).loadedNat x v = value x v) :
    LoadRule op.instr n minXlen (fun e => op.code e) value := by
  have hload : ∀ rd rs1 imm, (op.instr rd rs1 imm).isLoad = true := fun rd rs1 imm => by
    rw [isLoad_instr, hf]; rfl
  have havail : ∀ (s : State) rd rs1 imm, minXlen ≤ s.xlen.bits → (op.instr rd rs1 imm).availableAt s.xlen = true :=
    fun s rd rs1 imm h => (availableAt_iff _ _).2 (by rw [hx]; exact Nat.not_lt.2 h)
  refine ⟨fun e rd rs1 imm he => decode_encodeI he hf rd rs1 imm, fun s rd rs1 imm b hw hv hb => ?_,
    fun s rd rs1 imm hw hv => ?_, fun s addr h => accessEvents_of_aligned h⟩
  · have h := exec_load_completes (b := b) (hload rd rs1 imm) (havail s rd rs1 imm hw)
    rw [addrOf_instr, hn, instr_data, hvalue] at h
    exact h hv hb
  · have h := exec_load_unreadable (hload rd rs1 imm) (havail s rd rs1 imm hw)
    rw [addrOf_instr, hn] at h
    exact h hv

/-- On a machine narrower than its least width an instruction is illegal (R84, R141). -/
theorem illegalBelow_leastXlen {mk : RegIdx → RegIdx → Imm12 → Instr} {minXlen : Nat}
    (hx : ∀ r rs1 imm, leastXlen (mk r rs1 imm) = minXlen) : IllegalBelow mk minXlen := by
  intro s r rs1 imm hw
  exact exec_unavailable ((not_availableAt_iff _ _).2 (by rwa [hx]))

/-- Settles O27: the row of LB, one byte at every width, sign-extended. -/
theorem loadByteSigned : Obligations.LoadByteSigned := by
  unfold Obligations.LoadByteSigned
  exact loadRule_of_row (op := .lb) rfl (fun _ _ _ => rfl) (fun _ _ _ => rfl) (fun _ _ _ _ _ => rfl)

/-- Settles O28: the row of LBU, one byte at every width, zero-extended. -/
theorem loadByteUnsigned : Obligations.LoadByteUnsigned := by
  unfold Obligations.LoadByteUnsigned
  exact loadRule_of_row (op := .lbu) rfl (fun _ _ _ => rfl) (fun _ _ _ => rfl) (fun _ _ _ _ _ => rfl)

/-- Settles O29: the row of LH, two bytes at every width, sign-extended. -/
theorem loadHalfwordSigned : Obligations.LoadHalfwordSigned := by
  unfold Obligations.LoadHalfwordSigned
  exact loadRule_of_row (op := .lh) rfl (fun _ _ _ => rfl) (fun _ _ _ => rfl) (fun _ _ _ _ _ => rfl)

/-- Settles O30: the row of LHU, two bytes at every width, zero-extended. -/
theorem loadHalfwordUnsigned : Obligations.LoadHalfwordUnsigned := by
  unfold Obligations.LoadHalfwordUnsigned
  exact loadRule_of_row (op := .lhu) rfl (fun _ _ _ => rfl) (fun _ _ _ => rfl) (fun _ _ _ _ _ => rfl)

/-- Settles O31: the row of LW, four bytes at every width, sign-extended; 32 bits fill the narrowest register. -/
theorem loadWordSigned : Obligations.LoadWordSigned := by
  unfold Obligations.LoadWordSigned
  exact loadRule_of_row (op := .lw) rfl (fun _ _ _ => rfl) (fun _ _ _ => rfl) (fun _ _ _ => sextNat_eq_ite 32)

/-- Settles O32: the row of LWU, four bytes from 64 bits on, zero-extended. -/
theorem loadWordUnsigned : Obligations.LoadWordUnsigned := by
  unfold Obligations.LoadWordUnsigned
  exact ⟨loadRule_of_row (op := .lwu) rfl (fun _ _ _ => rfl) (fun _ _ _ => rfl) (fun _ _ _ _ _ => rfl),
    illegalBelow_leastXlen fun _ _ _ => rfl⟩

/-- Settles O33: the row of LD, eight bytes from 64 bits on, sign-extended; 64 bits fill the narrower register. -/
theorem loadDoublewordSigned : Obligations.LoadDoublewordSigned := by
  unfold Obligations.LoadDoublewordSigned
  exact ⟨loadRule_of_row (op := .ld) rfl (fun _ _ _ => rfl) (fun _ _ _ => rfl) (fun _ _ _ => sextNat_eq_ite 64),
    illegalBelow_leastXlen fun _ _ _ => rfl⟩

/-- Settles O34: the row of LDU, eight bytes at 128 bits, zero-extended. -/
theorem loadDoublewordUnsigned : Obligations.LoadDoublewordUnsigned := by
  unfold Obligations.LoadDoublewordUnsigned
  exact ⟨loadRule_of_row (op := .ldu) rfl (fun _ _ _ => rfl) (fun _ _ _ => rfl) (fun _ _ _ _ _ => rfl),
    illegalBelow_leastXlen fun _ _ _ => rfl, rfl⟩

/-- Settles O35: the row of LQ, sixteen bytes at 128 bits, which fill the register. -/
theorem loadQuadword : Obligations.LoadQuadword := by
  unfold Obligations.LoadQuadword
  exact ⟨loadRule_of_row (op := .lq) rfl (fun _ _ _ => rfl) (fun _ _ _ => rfl) (fun _ _ _ _ _ => rfl),
    illegalBelow_leastXlen fun _ _ _ => rfl, rfl⟩

end Sys2Proof.Machine
end

section
/-! A load's destination has no bearing on its access (R110): the same load with another `rd` ends the same way, and a value
loaded into `x0` is discarded. -/
namespace Sys2Proof.Machine

@[simp] theorem isLoad_withData (i : Instr) (r : RegIdx) : (i.withData r).isLoad = i.isLoad := by
  cases i <;> rfl

@[simp] theorem bytes_withData (i : Instr) (r : RegIdx) : (i.withData r).bytes = i.bytes := by
  cases i <;> rfl

@[simp] theorem availableAt_withData (i : Instr) (r : RegIdx) (x : Xlen) :
    (i.withData r).availableAt x = i.availableAt x := by
  cases i <;> rfl

@[simp] theorem addrOf_withData (s : State) (i : Instr) (r : RegIdx) : s.addrOf (i.withData r) = s.addrOf i :=
  addrOf_instr s i.op r i.base i.imm

/-- An instruction with its own data register. -/
@[simp] theorem withData_data (i : Instr) : i.withData i.data = i := instr_eta i

/-- An available load completes, or faults in one way, whatever its destination. -/
theorem exec_withData_cases {i : Instr} {s : State} (hl : i.isLoad = true) (ha : i.availableAt s.xlen = true) :
    (∀ r, ∃ t, exec (i.withData r) s = .next t) ∨ ∃ f, ∀ r, exec (i.withData r) s = .fault f := by
  have hl' : ∀ r, (i.withData r).isLoad = true := fun r => by rw [isLoad_withData, hl]
  have ha' : ∀ r, (i.withData r).availableAt s.xlen = true := fun r => by rw [availableAt_withData, ha]
  cases hv : s.admits (s.addrOf i) i.bytes .read with
  | false =>
    refine .inr ⟨.trap (.loadAccessFault (s.addrOf i).toNat) s.pcNat, fun r => ?_⟩
    rw [exec_load_invalid (hl' r) (ha' r) (by rwa [addrOf_withData, bytes_withData]), addrOf_withData]
  | true =>
    cases hb : s.bytesAt (s.addrOf i) i.bytes with
    | none =>
      refine .inr ⟨.unspecifiedByte (s.addrOf i).toNat s.pcNat, fun r => ?_⟩
      rw [exec_load_noValue (hl' r) (ha' r) (by rwa [addrOf_withData, bytes_withData])
        (by rwa [addrOf_withData, bytes_withData]), addrOf_withData]
    | some v =>
      obtain ⟨b, hholds, -⟩ := holds_of_bytesAt hb
      refine .inl fun r => ?_
      obtain ⟨t, ht, -⟩ := exec_load_completes (b := b) (hl' r) (ha' r)
        (by rw [addrOf_withData, bytes_withData]; exact admits_iff.1 hv) (by rwa [addrOf_withData, bytes_withData])
      exact ⟨t, ht⟩

/-- A value loaded into `x0` is discarded: only the pc has changed. -/
theorem afterLoad_zero {i : Instr} (h : i.data = 0) (s : State) (v : BitVec (8 * i.bytes)) :
    afterLoad i s v = s.advancePc := by
  rw [afterLoad, h, writeReg_zero]

/-- A load into `x0` that completes leaves the state with the pc advanced. -/
theorem eq_advancePc_of_exec_load_zero {i : Instr} {s t : State} (hl : i.isLoad = true) (h0 : i.data = 0)
    (h : exec i s = .next t) : t = s.advancePc := by
  rcases exec_next_cases h with ⟨-, -, -, v, -, rfl⟩ | ⟨hstore, -⟩
  · exact afterLoad_zero h0 s v
  · rw [hl] at hstore; cases hstore

/-- Settles O51: a load into `x0` leaves the pc advanced and nothing else; its end does not depend on the destination
(`exec_withData_cases`). -/
theorem loadToZeroRegisterIsPerformedAndDiscarded : Obligations.LoadToZeroRegisterIsPerformedAndDiscarded := by
  unfold Obligations.LoadToZeroRegisterIsPerformedAndDiscarded
  intro i s hl h0
  refine ⟨fun t ht => ?_, fun ha hv => exec_load_unreadable hl ha hv, fun r ha => ?_⟩
  · rw [eq_advancePc_of_exec_load_zero hl h0 ht]
    exact ⟨rfl, rfl, pcNat_advancePc s⟩
  · rcases exec_withData_cases hl ha with hnext | ⟨f, hfault⟩
    · obtain ⟨t, ht⟩ := hnext r
      obtain ⟨u, hu⟩ := withData_data i ▸ hnext i.data
      simp [ht, hu]
    · have hi : exec i s = .fault f := withData_data i ▸ hfault i.data
      simp [hfault r, hi]

end Sys2Proof.Machine
end

section
/-! The five stores (R120 to R125). An S-type word decodes to its row's instruction; an available store outside PROGRAM's
range completes, or faults, by the validity of its bytes alone. The rule of each store is `storeRule_of_row` at its row. -/
namespace Sys2Proof

/-- The S-type word of an immediate that is given in its two parts (R74). -/
theorem encodeS_append (c : Code) (rs2 rs1 : RegIdx) (hi : BitVec 7) (lo : BitVec 5) :
    encodeS c rs2 rs1 (hi ++ lo) = hi ++ rs2 ++ rs1 ++ c.funct3 ++ lo ++ c.opcode := by
  rw [encodeS, BitVec.extractLsb'_append_eq_left, BitVec.extractLsb'_append_eq_right]

/-- An S-type word with a store's code decodes to that store with the word's operands (R74, R81). -/
theorem decode_encodeS {e : Encodings} (he : e.wf = true) {op : Op} (hf : op.format = .S) (rs2 rs1 : RegIdx)
    (imm : Imm12) : decode e (encodeS (op.code e) rs2 rs1 imm) = .ok (op.instr rs2 rs1 imm) := by
  obtain ⟨hopcode, hfunct3, hrs2, hrs1, himm⟩ := encodeS_fields (op.code e) rs2 rs1 imm
  simp only [decode, findRow_of_code he hopcode hfunct3, hf, hrs2, hrs1, himm]

end Sys2Proof

namespace Sys2Proof.Machine

/-! ### How an available store outside PROGRAM's range ends -/

/-- The state after a store: the low bytes of its register at its addresses, and all else as before. -/
theorem storeLeaves_afterStore (i : Instr) (s : State) :
    StoreLeaves s (afterStore i s) (s.addrOf i) i.bytes (s.regNat i.data) :=
  ⟨rfl, rfl, afterStore_pcNat i s, afterStore_regNat i s, fun _ => afterStore_get?_of_lt,
    fun _ => afterStore_get?_of_notMem⟩

/-- A store whose bytes are writable and outside PROGRAM's range completes, whatever its alignment (R44, R120). -/
theorem exec_store_completes {i : Instr} {s : State} (hl : i.isLoad = false) (ha : i.availableAt s.xlen = true)
    (hp : ∀ j < i.bytes, s.inProgram (byteAddr (s.addrOf i) j) = false)
    (hv : ∀ j < i.bytes, s.memValid (byteAddr (s.addrOf i) j) .write = true) :
    ∃ t, exec i s = .next t ∧ StoreLeaves s t (s.addrOf i) i.bytes (s.regNat i.data) :=
  ⟨_, exec_store_valid hl ha (touchesProgram_eq_false_iff.2 hp) (admits_iff.2 hv), storeLeaves_afterStore i s⟩

/-- A store outside PROGRAM's range with an unwritable byte is a store access fault at its effective address (R143). -/
theorem exec_store_unwritable {i : Instr} {s : State} (hl : i.isLoad = false) (ha : i.availableAt s.xlen = true)
    (hp : ∀ j < i.bytes, s.inProgram (byteAddr (s.addrOf i) j) = false)
    (hv : ∃ j < i.bytes, s.memValid (byteAddr (s.addrOf i) j) .write = false) :
    exec i s = .fault (.trap (.storeAccessFault (s.addrOf i).toNat) s.pcNat) :=
  exec_store_invalid hl ha (touchesProgram_eq_false_iff.2 hp) (admits_eq_false_iff.2 hv)

/-! ### The rule of a row -/

/-- The rule of a store holds of its row, given the row's access size and least width. -/
theorem storeRule_of_row {op : Op} {n minXlen : Nat} (hf : op.format = .S)
    (hn : ∀ rs2 rs1 imm, (op.instr rs2 rs1 imm).bytes = n)
    (hx : ∀ rs2 rs1 imm, leastXlen (op.instr rs2 rs1 imm) = minXlen) :
    StoreRule op.instr n minXlen (fun e => op.code e) := by
  have hstore : ∀ rs2 rs1 imm, (op.instr rs2 rs1 imm).isLoad = false := fun rs2 rs1 imm => by
    rw [isLoad_instr, hf]; rfl
  have havail : ∀ (s : State) rs2 rs1 imm, minXlen ≤ s.xlen.bits → (op.instr rs2 rs1 imm).availableAt s.xlen = true :=
    fun s rs2 rs1 imm h => (availableAt_iff _ _).2 (by rw [hx]; exact Nat.not_lt.2 h)
  refine ⟨fun e rs2 rs1 hi lo he => ?_, fun s rs2 rs1 imm hw hp hv => ?_, fun s rs2 rs1 imm hw hp hv => ?_,
    fun s addr h => accessEvents_of_aligned h⟩
  · rw [← encodeS_append]
    exact decode_encodeS he hf rs2 rs1 (hi ++ lo)
  · have h := exec_store_completes (hstore rs2 rs1 imm) (havail s rs2 rs1 imm hw)
    rw [addrOf_instr, hn, instr_data] at h
    exact h hp hv
  · have h := exec_store_unwritable (hstore rs2 rs1 imm) (havail s rs2 rs1 imm hw)
    rw [addrOf_instr, hn] at h
    exact h hp hv

/-- Settles O36: the row of SB, one byte at every width. -/
theorem storeByte : Obligations.StoreByte := by
  unfold Obligations.StoreByte
  exact storeRule_of_row (op := .sb) rfl (fun _ _ _ => rfl) (fun _ _ _ => rfl)

/-- Settles O37: the row of SH, two bytes at every width. -/
theorem storeHalfword : Obligations.StoreHalfword := by
  unfold Obligations.StoreHalfword
  exact storeRule_of_row (op := .sh) rfl (fun _ _ _ => rfl) (fun _ _ _ => rfl)

/-- Settles O38: the row of SW, four bytes at every width. -/
theorem storeWord : Obligations.StoreWord := by
  unfold Obligations.StoreWord
  exact storeRule_of_row (op := .sw) rfl (fun _ _ _ => rfl) (fun _ _ _ => rfl)

/-- Settles O39: the row of SD, eight bytes from 64 bits on. -/
theorem storeDoubleword : Obligations.StoreDoubleword := by
  unfold Obligations.StoreDoubleword
  exact ⟨storeRule_of_row (op := .sd) rfl (fun _ _ _ => rfl) (fun _ _ _ => rfl),
    illegalBelow_leastXlen fun _ _ _ => rfl⟩

/-- Settles O40: the row of SQ, sixteen bytes at 128 bits, with the replaceable code. -/
theorem storeQuadword : Obligations.StoreQuadword := by
  unfold Obligations.StoreQuadword
  exact ⟨storeRule_of_row (op := .sq) rfl (fun _ _ _ => rfl) (fun _ _ _ => rfl),
    illegalBelow_leastXlen fun _ _ _ => rfl, rfl⟩

end Sys2Proof.Machine
end

section
/-! The faults of an access (R142). -/
namespace Sys2Proof.Machine

/-- Settles O42: one unreadable byte is enough for the access not to be admitted, which `exec` asks before it reads a byte
or writes the destination (`exec_load_unreadable`). -/
theorem loadOfAnInvalidByteFaults : Obligations.LoadOfAnInvalidByteFaults := by
  unfold Obligations.LoadOfAnInvalidByteFaults
  intro i s hload havail hunreadable
  exact exec_load_unreadable hload havail hunreadable

end Sys2Proof.Machine
end

section
/-! Encoding and decoding (sections 4, 6): the two are inverse to each other, on words and on bytes, since the rows of an
admissible table differ. -/
namespace Sys2Proof

/-- The word of an instruction decodes to it: by the format of its row, `decode_encodeI` or `decode_encodeS`. -/
theorem decode_encode {e : Encodings} (he : e.wf = true) (i : Instr) : decode e (encode e i) = .ok i := by
  rw [← Machine.instr_eta i, encode_eq]
  cases hf : i.op.format with
  | I => exact decode_encodeI he hf i.data i.base i.imm
  | S => exact decode_encodeS he hf i.data i.base i.imm

/-- Settles O3: an instruction is its row with its operands, and its word has the row's code and these operands as its
fields (`decode_encode`). -/
theorem decodeOfEncode : Obligations.DecodeOfEncode := by
  unfold Obligations.DecodeOfEncode
  exact fun e i he => decode_encode he i

/-- Settles O4: the row found has the code that stands in the word, and the other fields are the operands
(`encode_of_decode`). -/
theorem encodeOfDecode : Obligations.EncodeOfDecode := by
  unfold Obligations.EncodeOfDecode
  exact fun e inst i h => encode_of_decode h

/-- Settles O5: two rows of the table are two mnemonics, so their codes differ (`code_inj`), and with them their
`match`es (`matchWord_inj`). -/
theorem rowsAreDistinct : Obligations.RowsAreDistinct := by
  unfold Obligations.RowsAreDistinct
  intro e he
  have hops : ([.lb, .lbu, .lh, .lhu, .lw, .lwu, .ld, .ldu, .lq, .sb, .sh, .sw, .sd, .sq] : List Op).Nodup := by decide
  rw [opcodeTable, List.pairwise_map]
  exact hops.imp fun hne hmatch => hne (code_inj he (matchWord_inj hmatch))

/-- The first word of an image that begins with a word's bytes. -/
theorem takeWord_wordBytes_append (inst : InstWord) (rest : List Byte) :
    takeWord (wordBytes inst ++ rest) = .ok (inst, rest) := by
  have hword : BitVec.ofNat 32 (leNat (wordBytes inst)) = inst := by
    rw [leNat_wordBytes, BitVec.ofNat_toNat, BitVec.setWidth_eq]
  simp only [wordBytes] at hword
  simp only [wordBytes, List.cons_append, List.nil_append, takeWord, hword]

/-- Settles O10: the four bytes are the word (`takeWord_wordBytes_append`), which decodes to its instruction. -/
theorem decodeBytesReadsTheFirstWord : Obligations.DecodeBytesReadsTheFirstWord := by
  unfold Obligations.DecodeBytesReadsTheFirstWord
  intro e i rest he
  simp only [decodeBytes, takeWord_wordBytes_append, decode_encode he]

/-- Settles O7: a field is a slice of the word, which is a quotient and a remainder; the S-type immediate is two slices,
one after the other. -/
theorem fieldsReadTheirBits : Obligations.FieldsReadTheirBits := by
  unfold Obligations.FieldsReadTheirBits
  intro inst
  have hword := inst.isLt
  simp only [fieldRd, fieldRs1, fieldRs2, fieldImmI, fieldImmS, append_toNat, extractLsb'_toNat_div]
  refine ⟨trivial, trivial, trivial, ?_, ?_⟩ <;> omega

/-- Settles O1: the model decodes the fourteen words. -/
theorem sourceExamplesDecode : Obligations.SourceExamplesDecode := by
  unfold Obligations.SourceExamplesDecode
  exact ⟨rfl, rfl, rfl, rfl, rfl, rfl, rfl, rfl, rfl, rfl, rfl, rfl, rfl, rfl⟩

/-- Settles O2: the model computes its table. -/
theorem tableHasTheMatchesOfTheOpcodeMap : Obligations.TableHasTheMatchesOfTheOpcodeMap := by
  unfold Obligations.TableHasTheMatchesOfTheOpcodeMap
  decide

end Sys2Proof
end

section
/-! What an instruction that completes leaves (R25, R23), and with it every step: the parameters as they were, the pc at
the next instruction, and memory in canonical form. -/
namespace Sys2Proof.Machine

/-- No instruction changes `XLEN` or the platform (R6, R60). -/
theorem exec_keeps_parameters {i : Instr} {s t : State} (h : exec i s = .next t) : t.xlen = s.xlen ∧ t.plat = s.plat := by
  rcases exec_next_cases h with ⟨-, -, -, v, -, rfl⟩ | ⟨-, -, -, -, rfl⟩
  · exact ⟨rfl, rfl⟩
  · exact ⟨rfl, rfl⟩

/-- An instruction that completes ends with `pc <- pc + 4` (R25). -/
theorem exec_pcNat {i : Instr} {s t : State} (h : exec i s = .next t) : t.pcNat = (s.pcNat + 4) % s.space := by
  rcases exec_next_cases h with ⟨-, -, -, v, -, rfl⟩ | ⟨-, -, -, -, rfl⟩
  · exact afterLoad_pcNat i s v
  · exact afterStore_pcNat i s

/-- A store writes only addresses that exist (R40, R49). -/
theorem lt_of_mem_storeWrites {i : Instr} {s : State} {c : Nat × Byte} (h : c ∈ storeWrites i s) :
    c.1 < 2 ^ s.xlen.bits := by
  have haddr : c.1 ∈ accessAddrs (s.addrOf i) i.bytes := map_fst_storeWrites i s ▸ List.mem_map_of_mem h
  obtain ⟨j, -, hj⟩ := mem_accessAddrs.1 haddr
  exact hj ▸ byteAddr_lt _ j

/-- Every instruction keeps memory canonical and inside the address space. -/
theorem exec_keeps_memory_wf {i : Instr} {s t : State} (h : exec i s = .next t) (hwf : s.mem.wf = true)
    (hin : cellsInSpace s.xlen s.mem = true) : t.mem.wf = true ∧ cellsInSpace t.xlen t.mem = true := by
  rcases exec_next_cases h with ⟨-, -, -, v, -, rfl⟩ | ⟨-, -, -, -, rfl⟩
  · exact ⟨hwf, hin⟩
  · exact ⟨Memory.wf_setAll _ _ hwf, cellsInSpace_setAll s.xlen _ _ hin fun c hc => lt_of_mem_storeWrites hc⟩

/-- The next instruction's address is a multiple of 4 when this one's is (R26). -/
theorem pc_add_four_aligned {s : State} (h : s.pcNat % 4 = 0) : (s.pcNat + 4) % s.space % 4 = 0 := by
  rw [Nat.mod_mod_of_dvd _ (four_dvd_space s)]
  omega

/-- Every instruction that completes keeps the invariant. -/
theorem exec_keeps_inv {i : Instr} {s t : State} (hinv : s.Inv) (h : exec i s = .next t) : t.Inv := by
  obtain ⟨hwf, hin, hpc, hprogram, henc⟩ := hinv
  obtain ⟨hwf', hin'⟩ := exec_keeps_memory_wf h hwf hin
  obtain ⟨hxlen, hplat⟩ := exec_keeps_parameters h
  refine ⟨hwf', hin', ?_, ?_, ?_⟩
  · rw [exec_pcNat h]
    exact pc_add_four_aligned hpc
  · rwa [hplat, hxlen]
  · rwa [hplat]

/-- Settles O17: a step that goes on is the stopped hart's, which changes nothing, or an instruction's, which keeps each
part of the invariant (`exec_keeps_inv`). -/
theorem stepKeepsInvariant : Obligations.StepKeepsInvariant := by
  unfold Obligations.StepKeepsInvariant
  intro s t hinv h
  rcases step_next_cases h with ⟨-, rfl⟩ | ⟨inst, i, -, -, hexec⟩
  · exact hinv
  · exact exec_keeps_inv hinv hexec

/-- No step changes `XLEN` or the platform. -/
theorem step_keeps_parameters {s t : State} (h : step s = .next t) : t.xlen = s.xlen ∧ t.plat = s.plat := by
  rcases step_next_cases h with ⟨-, rfl⟩ | ⟨inst, i, -, -, hexec⟩
  · exact ⟨rfl, rfl⟩
  · exact exec_keeps_parameters hexec

/-- Settles O16: neither the stopped hart nor an instruction changes a parameter (`step_keeps_parameters`). -/
theorem stepKeepsTheParameters : Obligations.StepKeepsTheParameters := by
  unfold Obligations.StepKeepsTheParameters
  exact fun s t => step_keeps_parameters

/-- A fault of an instruction reports its pc (R146). -/
theorem exec_fault_reports_pc {i : Instr} {s : State} {f : Fault} (h : exec i s = .fault f) :
    (∃ x, f = .trap x s.pcNat) ∨ ∃ a, f = .unspecifiedByte a s.pcNat := by
  rcases exec_cases i s with ⟨-, e⟩ | ⟨-, -, -, e⟩ | ⟨-, -, -, -, e⟩ | ⟨-, -, -, v, -, e⟩ | ⟨-, -, -, e⟩ |
    ⟨-, -, -, -, e⟩ | ⟨-, -, -, -, e⟩ <;> rw [e] at h <;> cases h
  · exact .inl ⟨_, rfl⟩
  · exact .inl ⟨_, rfl⟩
  · exact .inr ⟨_, rfl⟩
  · exact .inl ⟨_, rfl⟩

/-- Settles O15: `exec_pcNat` for an instruction, and the stopped hart otherwise; a step's fault is that of the fetch or of
the instruction. -/
theorem pcAdvancesByFour : Obligations.PcAdvancesByFour := by
  unfold Obligations.PcAdvancesByFour
  refine ⟨fun i s t => exec_pcNat, fun s t h => ?_, fun s f h => ?_⟩
  · rcases step_next_cases h with hended | ⟨inst, i, -, -, hexec⟩
    · exact .inr hended
    · exact .inl (exec_pcNat hexec)
  · rcases step_cases s with ⟨-, -, e⟩ | ⟨-, -, e⟩ | ⟨inst, r, -, -, e⟩ | ⟨inst, i, -, -, -, e⟩ | ⟨inst, -, -, -, e⟩ <;>
      rw [e] at h
    · cases h
    · cases h
      exact .inl ⟨_, rfl⟩
    · cases h
    · exact exec_fault_reports_pc h
    · cases h

/-- The state after reset meets the invariant when the parameters are well formed (R171, R173). -/
theorem inv_resetOf {p : Params} (h : p.wf = true) : (State.resetOf p).Inv := by
  simp only [Params.wf, Bool.and_eq_true, beq_iff_eq] at h
  obtain ⟨⟨⟨⟨henc, hprogram⟩, hpc⟩, hrising⟩, hin⟩ := h
  exact ⟨Memory.wf_resetOf p hrising, hin, hpc, hprogram, henc⟩

/-- Settles O18: the invariant after reset is `Params.wf`, part by part, and the model's own parameters are well formed. -/
theorem resetMeetsInvariant : Obligations.ResetMeetsInvariant := by
  unfold Obligations.ResetMeetsInvariant
  exact ⟨inv_resetOf (by decide), fun p => inv_resetOf⟩

/-- Every register reads 0 after reset (notes/assumptions/2.md). -/
theorem regNat_resetOf (p : Params) (r : RegIdx) : (State.resetOf p).regNat r = 0 := by
  simp [State.regNat, State.readReg, State.resetOf]

/-- Settles O19: the fields of the state after reset are the parameters, and its registers are `regNat_resetOf`. -/
theorem resetState : Obligations.ResetState := by
  unfold Obligations.ResetState
  exact ⟨fun p => ⟨rfl, rfl, rfl, fun _ => rfl, regNat_resetOf p⟩, rfl, rfl⟩

end Sys2Proof.Machine
end

section
/-! Words that match no row (R85): they decode to nothing, and a step of a program that contains one is a refusal. -/
namespace Sys2Proof

/-- Decoding rejects exactly the words whose masked value is no row's `match`. -/
theorem decode_eq_error_iff {e : Encodings} {w : InstWord} {q : DecodeReject} :
    decode e w = .error q ↔ (∀ r ∈ opcodeTable e, r.code.matchWord ≠ w &&& tableMask) ∧ q = .noRow w := by
  have hnone : findRow e w = none ↔ ∀ r ∈ opcodeTable e, r.code.matchWord ≠ w &&& tableMask := by
    simp only [findRow, List.find?_eq_none, beq_iff_eq, ne_eq]
  rw [← hnone, decode]
  cases findRow e w with
  | none => simp [eq_comm]
  | some r => cases hf : r.op.format <;> simp [hf]

/-- What the default table's codes have in common with the words they match: bits 1:0 are `11`, the opcode is not all ones,
STORE has funct3 below 5 and MISC-MEM has funct3 010 (R78 to R80). -/
theorem default_code_fields (op : Op) :
    (op.code Encodings.default).opcode.extractLsb' 0 2 = 0b11#2 ∧ (op.code Encodings.default).opcode ≠ 0b1111111#7 ∧
    ((op.code Encodings.default).opcode = 0b0100011#7 → ¬ 5 ≤ (op.code Encodings.default).funct3.toNat) ∧
    ((op.code Encodings.default).opcode = 0b0001111#7 → (op.code Encodings.default).funct3 = 0b010#3) := by
  cases op <;> decide

/-- The same of every word that matches a row of the default table. -/
theorem fields_of_findRow_default {w : InstWord} {r : Row} (h : findRow Encodings.default w = some r) :
    w.extractLsb' 0 2 = 0b11#2 ∧ w.extractLsb' 0 7 ≠ 0b1111111#7 ∧
    (w.extractLsb' 0 7 = 0b0100011#7 → ¬ 5 ≤ (w.extractLsb' 12 3).toNat) ∧
    (w.extractLsb' 0 7 = 0b0001111#7 → w.extractLsb' 12 3 = 0b010#3) := by
  have hfields := default_code_fields r.op
  rw [code_of_findRow h] at hfields
  obtain ⟨hlow, hrest⟩ := hfields
  refine ⟨?_, hrest⟩
  rw [← hlow]
  apply BitVec.eq_of_toNat_eq
  simp only [BitVec.extractLsb'_toNat, Nat.shiftRight_zero]
  omega

/-- The words of R85 match no row of the default table. -/
theorem findRow_default_eq_none {w : InstWord}
    (h : (w.extractLsb' 0 7 = 0b0100011#7 ∧ 5 ≤ (w.extractLsb' 12 3).toNat) ∨
      (w.extractLsb' 0 7 = 0b0001111#7 ∧ w.extractLsb' 12 3 ≠ 0b010#3) ∨
      w.extractLsb' 0 2 ≠ 0b11#2 ∨ w = 0#32 ∨ w = 0xFFFFFFFF#32) : findRow Encodings.default w = none := by
  cases hr : findRow Encodings.default w with
  | none => rfl
  | some r =>
    obtain ⟨hlow, hones, hstore, hmisc⟩ := fields_of_findRow_default hr
    rcases h with ⟨hop, hf⟩ | ⟨hop, hf⟩ | hne | rfl | rfl
    · exact absurd hf (hstore hop)
    · exact absurd (hmisc hop) hf
    · exact absurd hlow hne
    · exact absurd hlow (by decide)
    · exact absurd (by decide) hones

end Sys2Proof

namespace Sys2Proof.Machine

/-- A word that fetch finds is a word of PROGRAM (R70). -/
theorem mem_words_of_fetch {s : State} {inst : InstWord} (h : s.fetch = .word inst) : inst ∈ s.plat.program.words := by
  simp only [State.fetch] at h
  split at h
  · split at h
    · next hget =>
      cases h
      exact List.mem_of_getElem? hget
    · split at h <;> cases h
  · cases h

/-- A step at a word that does not decode is refused with that word. -/
theorem step_of_decode_error {s : State} {inst : InstWord} {q : DecodeReject} (hf : s.fetch = .word inst)
    (hd : decode s.plat.enc inst = .error q) : step s = .refused (.unknownWord inst s.pcNat) := by
  simp only [step, hf, hd]
  rfl

/-- A step in a program without a meaning is refused with a word of the program that matches no row. -/
theorem step_of_not_programHasMeaning {s : State} (h : ¬ s.ProgramHasMeaning) :
    ∃ w ∈ s.plat.program.words, decode s.plat.enc w = .error (.noRow w) ∧
      (step s = .refused (.unknownWord w s.pcNat) ∨ step s = .refused (.unknownWordInProgram w s.pcNat)) := by
  rcases step_cases s with ⟨-, hm, -⟩ | ⟨-, hm, -⟩ | ⟨w, q, hf, hd, e⟩ | ⟨w, i, -, -, hm, -⟩ | ⟨w, hw, hd, -, e⟩
  · exact absurd hm h
  · exact absurd hm h
  · obtain ⟨-, rfl⟩ := decode_eq_error_iff.1 hd
    exact ⟨w, mem_words_of_fetch hf, hd, .inl e⟩
  · exact absurd hm h
  · exact ⟨w, hw, hd, .inr e⟩

/-- A program with a word that matches no row has no meaning. -/
theorem not_programHasMeaning_of_mem {s : State} {inst : InstWord} {q : DecodeReject}
    (hmem : inst ∈ s.plat.program.words) (hd : decode s.plat.enc inst = .error q) : ¬ s.ProgramHasMeaning := by
  intro hm
  obtain ⟨i, hi⟩ := hm inst hmem
  rw [hd] at hi
  cases hi

/-- Settles O6: a word that matches no row does not decode (`decode_eq_error_iff`), so it is refused where it is fetched and
the program that holds it has no meaning; the listed words match no row of the default table (`findRow_default_eq_none`). -/
theorem unmatchedWordsAreRefused : Obligations.UnmatchedWordsAreRefused := by
  unfold Obligations.UnmatchedWordsAreRefused
  refine ⟨fun s inst hf h => ?_, fun s inst hmem h => ?_, fun s inst hf hdefault h => ?_⟩
  · exact step_of_decode_error hf (decode_eq_error_iff.2 ⟨h, rfl⟩)
  · have hm := not_programHasMeaning_of_mem hmem (decode_eq_error_iff.2 ⟨h, rfl⟩)
    obtain ⟨w, hw, hd, hstep⟩ := step_of_not_programHasMeaning hm
    exact ⟨w, hw, (decode_eq_error_iff.1 hd).1, hstep⟩
  · have hd : decode s.plat.enc inst = .error (.noRow inst) := by
      simp only [decode, hdefault, findRow_default_eq_none h]
    exact step_of_decode_error hf hd

/-- Settles O11: in a program that has a meaning, `step_eq_exec`; in another, the refusal names a word that does not decode,
which is not the one at the pc. -/
theorem stepRunsDecodedInstruction : Obligations.StepRunsDecodedInstruction := by
  unfold Obligations.StepRunsDecodedInstruction
  intro s inst i hf hd
  refine ⟨step_eq_exec hf hd, fun hm => ?_⟩
  rcases ifProgramHasMeaning_cases s with ⟨hm', -⟩ | ⟨w, hw, hwd, e⟩
  · exact absurd hm' hm
  · refine ⟨w, hw, fun j => ?_, by simp only [step, hf, hd, e]⟩
    rw [hwd]
    simp

end Sys2Proof.Machine
end

section
/-! PROGRAM's addresses and runs (R70, R177): what fetch finds at each distance from `PROGRAM.base`, and how far a run has
come after some steps. -/
namespace Sys2Proof.Machine

/-- The pc is at word `k` of PROGRAM, or for `k = L` at the end of the run. -/
def State.AtWord (s : State) (k : Nat) : Prop :=
  s.pcNat = (s.plat.program.base + 4 * k) % s.space

/-- The pc of word `k` lies `4k` bytes past the base. -/
theorem programOffset_of_atWord {s : State} {k : Nat} (hwf : s.plat.program.wf s.xlen = true)
    (hk : k ≤ s.plat.program.words.length) (hpc : s.AtWord k) : s.programOffset s.pcNat = 4 * k := by
  have hlen := program_length_lt hwf
  exact programOffset_of_eq (by omega) hpc

/-- Fetch at word `k` finds that word (R70). -/
theorem fetch_of_atWord {s : State} {k : Nat} {inst : InstWord} (hwf : s.plat.program.wf s.xlen = true)
    (hget : s.plat.program.words[k]? = some inst) (hpc : s.AtWord k) : s.fetch = .word inst := by
  obtain ⟨hk, -⟩ := List.getElem?_eq_some_iff.1 hget
  rw [fetch_of_offset (programOffset_of_atWord hwf hk.le hpc), hget]

/-- Fetch past the last word finds the end of the run (R177). -/
theorem fetch_of_atEnd {s : State} (hwf : s.plat.program.wf s.xlen = true) (hend : s.AtEnd) : s.fetch = .ended := by
  rw [fetch_of_offset (programOffset_of_atWord hwf le_rfl hend), List.getElem?_eq_none le_rfl]
  simp

/-- Fetch finds neither a word nor the end of the run only where neither is (R157). -/
theorem fetch_ne_outside_of_atWord {s : State} {k : Nat} (hwf : s.plat.program.wf s.xlen = true)
    (hk : k ≤ s.plat.program.words.length) (hpc : s.AtWord k) : s.fetch ≠ .outside := by
  rcases hk.lt_or_eq with hlt | rfl
  · rw [fetch_of_atWord hwf (List.getElem?_eq_getElem hlt) hpc]
    simp
  · rw [fetch_of_atEnd hwf hpc]
    simp

/-- Where neither a word nor the end of the run is, fetch finds neither (R157). -/
theorem fetch_eq_outside {s : State} (h : ∀ k ≤ s.plat.program.words.length, ¬ s.AtWord k) : s.fetch = .outside := by
  by_cases h4 : s.programOffset s.pcNat % 4 = 0
  · obtain ⟨k, hoff⟩ : ∃ k, s.programOffset s.pcNat = 4 * k := ⟨_, (Nat.mul_div_cancel' (Nat.dvd_of_mod_eq_zero h4)).symm⟩
    have hpc : s.AtWord k := by
      rw [State.AtWord, ← hoff]
      exact eq_of_programOffset (pcNat_lt s)
    have hk : s.plat.program.words.length < k := Nat.lt_of_not_le fun hle => h k hle hpc
    rw [fetch_of_offset hoff, List.getElem?_eq_none hk.le]
    simp only [if_neg hk.ne']
  · exact fetch_of_misaligned_offset h4

/-- Settles O12: word `k` lies `4k` bytes past the base, where fetch finds it (`fetch_of_atWord`). -/
theorem fetchReadsTheProgramWord : Obligations.FetchReadsTheProgramWord := by
  unfold Obligations.FetchReadsTheProgramWord
  exact fun s k inst hwf hget hpc => fetch_of_atWord hwf hget hpc

/-- A run that has ended stays (R177, notes/assumptions/7.md). -/
theorem step_of_atEnd {s : State} (hwf : s.plat.program.wf s.xlen = true) (hm : s.ProgramHasMeaning) (hend : s.AtEnd) :
    step s = .next s := by
  simp only [step, fetch_of_atEnd hwf hend, ifProgramHasMeaning_of hm]

/-- The same for any number of steps. -/
theorem runFor_of_atEnd {s : State} (hwf : s.plat.program.wf s.xlen = true) (hm : s.ProgramHasMeaning) (hend : s.AtEnd)
    (k : Nat) : runFor k s = .next s := by
  induction k with
  | zero => exact runFor_zero s
  | succ k ih => rw [runFor_succ, step_of_atEnd hwf hm hend]; exact ih

/-- A step taken at word `k` leads to word `k + 1`: the words are executed in order. -/
theorem atWord_succ_of_step {s t : State} {k : Nat} (hwf : s.plat.program.wf s.xlen = true)
    (hk : k < s.plat.program.words.length) (hpc : s.AtWord k) (h : step s = .next t) : t.AtWord (k + 1) := by
  obtain ⟨hxlen, hplat⟩ := step_keeps_parameters h
  have hspace : t.space = s.space := by rw [State.space, State.space, hxlen]
  have hfetch := fetch_of_atWord hwf (List.getElem?_eq_getElem hk) hpc
  rcases step_next_cases h with ⟨hended, -⟩ | ⟨inst, i, -, -, hexec⟩
  · rw [hfetch] at hended
    cases hended
  · rw [State.AtWord, exec_pcNat hexec, hpc, Nat.mod_add_mod, hplat, hspace]
    rfl

/-- `j` steps taken from word `k` lead to word `k + j`, with the parameters as they were. -/
theorem atWord_add_of_runFor {j : Nat} {s t : State} {k : Nat} (hwf : s.plat.program.wf s.xlen = true)
    (hk : k + j ≤ s.plat.program.words.length) (hpc : s.AtWord k) (h : runFor j s = .next t) :
    t.xlen = s.xlen ∧ t.plat = s.plat ∧ t.AtWord (k + j) := by
  induction j generalizing s k with
  | zero =>
    rw [runFor_zero] at h
    cases h
    exact ⟨rfl, rfl, hpc⟩
  | succ j ih =>
    obtain ⟨u, hstep, hrun⟩ := runFor_succ_next h
    obtain ⟨hxlen, hplat⟩ := step_keeps_parameters hstep
    have hu := atWord_succ_of_step hwf (by omega) hpc hstep
    obtain ⟨hxlen', hplat', ht⟩ := ih (by rwa [hplat, hxlen]) (by rw [hplat]; omega) hu hrun
    refine ⟨hxlen'.trans hxlen, hplat'.trans hplat, ?_⟩
    rwa [show k + (j + 1) = k + 1 + j by omega]

/-- Settles O14: a run that has ended stays (`runFor_of_atEnd`), and `j` steps taken from word `k` lead to word `k + j`
(`atWord_add_of_runFor`), which is the end of the run for `k + j = L`. -/
theorem runIsStraightLineAndEnds : Obligations.RunIsStraightLineAndEnds := by
  unfold Obligations.RunIsStraightLineAndEnds
  refine ⟨fun s k hwf hm hend => runFor_of_atEnd hwf hm hend k, fun s t k j hwf hk hpc hrun => ?_⟩
  obtain ⟨hxlen, hplat, ht⟩ := atWord_add_of_runFor hwf hk hpc hrun
  have hspace : t.space = s.space := by rw [State.space, State.space, hxlen]
  have hwf' : t.plat.program.wf t.xlen = true := by rwa [hplat, hxlen]
  refine ⟨hplat, hxlen, ?_, fun inst hget => fetch_of_atWord hwf' (by rwa [hplat]) ht, fun hlast => ?_⟩
  · rw [← hplat, ← hspace]
    exact ht
  · rw [hlast, ← hplat] at ht
    exact ht

/-- A state at a word of a well-formed PROGRAM, or at its end. -/
def State.InsideRun (s : State) : Prop :=
  s.plat.program.wf s.xlen = true ∧ ∃ k ≤ s.plat.program.words.length, s.AtWord k

/-- A step that goes on from inside the run stays inside it: at the end it stays, elsewhere it goes to the next word. -/
theorem step_keeps_insideRun {s t : State} (hin : s.InsideRun) (h : step s = .next t) : t.InsideRun := by
  obtain ⟨hwf, k, hk, hpc⟩ := hin
  obtain ⟨hxlen, hplat⟩ := step_keeps_parameters h
  refine ⟨by rwa [hplat, hxlen], ?_⟩
  rw [hplat]
  rcases hk.lt_or_eq with hlt | rfl
  · exact ⟨k + 1, hlt, atWord_succ_of_step hwf hlt hpc h⟩
  · have hm : s.ProgramHasMeaning := programHasMeaning_of_step fun q hq => by rw [h] at hq; cases hq
    rw [step_of_atEnd hwf hm hpc] at h
    cases h
    exact ⟨_, le_rfl, hpc⟩

/-- An instruction access fault is raised by fetch only (R157). -/
theorem exec_ne_instructionAccessFault (i : Instr) (s : State) (a p : Nat) :
    exec i s ≠ .fault (.trap (.instructionAccessFault a) p) := by
  intro h
  rcases exec_cases i s with ⟨-, e⟩ | ⟨-, -, -, e⟩ | ⟨-, -, -, -, e⟩ | ⟨-, -, -, v, -, e⟩ | ⟨-, -, -, e⟩ |
    ⟨-, -, -, -, e⟩ | ⟨-, -, -, -, e⟩ <;> rw [e] at h <;> cases h

/-- An instruction access fault is raised where fetch finds nothing. -/
theorem fetch_of_instructionAccessFault {s : State} {a p : Nat}
    (h : step s = .fault (.trap (.instructionAccessFault a) p)) : s.fetch = .outside := by
  rcases step_cases s with ⟨-, -, e⟩ | ⟨hf, -, -⟩ | ⟨inst, r, -, -, e⟩ | ⟨inst, i, -, -, -, e⟩ | ⟨inst, -, -, -, e⟩
  · rw [e] at h; cases h
  · exact hf
  · rw [e] at h; cases h
  · exact absurd (e ▸ h) (exec_ne_instructionAccessFault i s a p)
  · rw [e] at h; cases h

/-- Settles O13: away from the words and the end fetch finds nothing (`fetch_eq_outside`); a run that starts inside stays
inside (`step_keeps_insideRun`), where fetch always finds something. -/
theorem fetchOutsideProgramFaults : Obligations.FetchOutsideProgramFaults := by
  unfold Obligations.FetchOutsideProgramFaults
  refine ⟨fun s _ hm h => ?_, fun s t k j hwf hk hpc hrun a p hfault => ?_⟩
  · simp only [step, fetch_eq_outside h, ifProgramHasMeaning_of hm]
    rfl
  · obtain ⟨hwf', k', hk', hpc'⟩ : t.InsideRun :=
      runFor_induction (P := State.InsideRun) (fun _ _ => step_keeps_insideRun) ⟨hwf, k, hk, hpc⟩ hrun
    exact fetch_ne_outside_of_atWord hwf' hk' hpc' (fetch_of_instructionAccessFault hfault)

/-- An address `d` bytes past the base is in PROGRAM's range when `d < 4L` (R60). -/
theorem inProgram_of_eq {s : State} {a d : Nat} (hwf : s.plat.program.wf s.xlen = true)
    (hd : d < 4 * s.plat.program.words.length) (ha : a = (s.plat.program.base + d) % s.space) : s.inProgram a = true := by
  rw [State.inProgram, programOffset_of_eq (hd.trans (program_length_lt hwf)) ha]
  exact decide_eq_true hd

/-- Settles O23: an address of the address space is the base plus its distance past it, and no other distance below `4L` leads
to it. -/
theorem programRangeIsItsWords : Obligations.ProgramRangeIsItsWords := by
  unfold Obligations.ProgramRangeIsItsWords
  intro s a hwf ha
  constructor
  · intro h
    exact ⟨s.programOffset a, of_decide_eq_true h, eq_of_programOffset ha⟩
  · rintro ⟨d, hd, hda⟩
    exact inProgram_of_eq hwf hd hda

end Sys2Proof.Machine
end

section
/-! The bytes of an access (R49 to R53): where they lie, the pieces they make, and that writes to different addresses can be
done in any order and repeated. -/
namespace Sys2Proof.Machine

/-- Byte `j` of an access is the `j`-th of its addresses. -/
theorem getElem?_accessAddrs {w : Nat} (addr : BitVec w) {n j : Nat} (hj : j < n) :
    (accessAddrs addr n)[j]? = some (byteAddr addr j) := by
  simp [accessAddrs, hj]

/-- Past the top of the address space an access continues at 0 (R49, notes/assumptions/11.md). -/
theorem byteAddr_eq_ite {w : Nat} (addr : BitVec w) {j : Nat} (hj : j ≤ 2 ^ w) :
    byteAddr addr j = if addr.toNat + j < 2 ^ w then addr.toNat + j else addr.toNat + j - 2 ^ w := by
  have haddr := addr.isLt
  rw [byteAddr]
  split
  · next h => exact Nat.mod_eq_of_lt h
  · next h => rw [Nat.mod_eq_sub_mod (by omega), Nat.mod_eq_of_lt (by omega)]

/-- Settles O22: an access has at most 16 bytes, far fewer than the address space, so it wraps at most once
(`byteAddr_eq_ite`). -/
theorem accessContinuesAtZero : Obligations.AccessContinuesAtZero := by
  unfold Obligations.AccessContinuesAtZero
  intro s addr n j hn hj
  rw [getElem?_accessAddrs addr hj, byteAddr_eq_ite addr (le_space_of_le_sixteen s (by omega))]
  rfl

/-! ### The pieces of an access -/

/-- A misaligned access is one event for each byte (R51). -/
theorem accessEvents_of_misaligned {w : Nat} {addr : BitVec w} {n : Nat} (h : addr.toNat % n ≠ 0) :
    accessEvents addr n = (accessAddrs addr n).map fun a => [a] := by
  simp [accessEvents, isAligned, h]

/-- Together the events are the access's bytes, in their order. -/
theorem flatten_accessEvents {w : Nat} (addr : BitVec w) (n : Nat) :
    (accessEvents addr n).flatten = accessAddrs addr n := by
  by_cases h : addr.toNat % n = 0
  · rw [accessEvents_of_aligned h, List.flatten_singleton]
  · rw [accessEvents_of_misaligned h, ← List.flatMap_def, List.flatMap_singleton']

/-- Settles O25: the events are the access in one piece or byte by byte, together its addresses, which differ. -/
theorem accessEventsTouchEachByteOnce : Obligations.AccessEventsTouchEachByteOnce := by
  unfold Obligations.AccessEventsTouchEachByteOnce
  intro s addr n _ hn
  refine ⟨flatten_accessEvents addr n, nodup_accessAddrs addr (le_space_of_le_sixteen s hn), fun h => ?_, fun h => ?_⟩
  · have haligned : addr.toNat % n = 0 := by
      rcases h with rfl | h
      · exact Nat.mod_one _
      · exact h
    rw [accessEvents_of_aligned haligned, List.length_singleton]
  · rw [accessEvents_of_misaligned h]
    exact ⟨by simp, by simp⟩

/-- Together a store's events are its writes, in their order. -/
theorem flatten_storeEvents {w : Nat} (addr : BitVec w) (n : Nat) (v : BitVec (8 * n)) :
    (storeEvents addr n v).flatten = storeBytes addr n v := by
  rw [storeEvents]
  split
  · exact List.flatten_singleton
  · rw [← List.flatMap_def, List.flatMap_singleton']

/-! ### Writes to different addresses -/

/-- A store of at most 16 bytes writes no address twice. -/
theorem nodup_map_fst_storeBytes (s : State) (addr : BitVec s.xlen.bits) {n : Nat} (v : BitVec (8 * n)) (hn : n ≤ 16) :
    ((storeBytes addr n v).map Prod.fst).Nodup := by
  rw [map_fst_storeBytes]
  exact nodup_accessAddrs addr (le_space_of_le_sixteen s hn)

/-- Two lists of the same writes, no address twice, leave the same bytes, whatever their order and over memories that agree
elsewhere. -/
theorem Memory.get?_setAll_congr {ws ws' : List (Nat × Byte)} {m m' : Memory} (hperm : ws.Perm ws')
    (hn : (ws.map Prod.fst).Nodup) {a : Nat} (hout : a ∉ ws.map Prod.fst → m.get? a = m'.get? a) :
    Memory.get? (m.setAll ws) a = Memory.get? (m'.setAll ws') a := by
  have haddrs := hperm.map Prod.fst
  by_cases ha : a ∈ ws.map Prod.fst
  · obtain ⟨⟨a, v⟩, hmem, rfl⟩ := List.mem_map.1 ha
    rw [Memory.get?_setAll_of_mem m hn hmem,
      Memory.get?_setAll_of_mem m' (haddrs.nodup_iff.1 hn) (hperm.mem_iff.1 hmem)]
  · rw [Memory.get?_setAll_of_notMem _ _ _ ha, Memory.get?_setAll_of_notMem _ _ _ (mt haddrs.mem_iff.2 ha)]
    exact hout ha

/-- Writes to different addresses can be done in any order: the memories are equal as data. -/
theorem Memory.setAll_perm {ws ws' : List (Nat × Byte)} {m : Memory} (hwf : m.wf = true) (hperm : ws.Perm ws')
    (hn : (ws.map Prod.fst).Nodup) : m.setAll ws = m.setAll ws' :=
  Memory.eq_of_get?_eq (Memory.wf_setAll _ _ hwf) (Memory.wf_setAll _ _ hwf) fun _ =>
    Memory.get?_setAll_congr hperm hn fun _ => rfl

/-- Writes to different addresses can be repeated: the memories are equal as data. -/
theorem Memory.setAll_setAll {ws : List (Nat × Byte)} {m : Memory} (hwf : m.wf = true) (hn : (ws.map Prod.fst).Nodup) :
    Memory.setAll (m.setAll ws) ws = m.setAll ws :=
  Memory.eq_of_get?_eq (Memory.wf_setAll _ _ (Memory.wf_setAll _ _ hwf)) (Memory.wf_setAll _ _ hwf) fun _ =>
    Memory.get?_setAll_congr (.refl ws) hn fun ha => Memory.get?_setAll_of_notMem _ _ _ ha

/-- Settles O24: a store's writes are to different addresses, so doing them again changes nothing
(`Memory.setAll_setAll`). -/
theorem storingTwiceIsStoringOnce : Obligations.StoringTwiceIsStoringOnce := by
  unfold Obligations.StoringTwiceIsStoringOnce
  intro s addr n v hwf hn
  exact congrArg s.withMem (Memory.setAll_setAll hwf (nodup_map_fst_storeBytes s addr v hn))

/-- Settles O26: events in another order are the store's writes in another order, which are to different addresses
(`Memory.setAll_perm`). -/
theorem storeEventsInAnyOrderLeaveTheSameMemory : Obligations.StoreEventsInAnyOrderLeaveTheSameMemory := by
  unfold Obligations.StoreEventsInAnyOrderLeaveTheSameMemory
  intro s addr n v es hwf hn hperm
  have hwrites : (storeBytes addr n v).Perm es.flatten := flatten_storeEvents addr n v ▸ hperm.flatten.symm
  rw [Memory.applyEvents_eq, writeBytes_mem]
  exact (Memory.setAll_perm hwf hwrites (nodup_map_fst_storeBytes s addr v hn)).symm

end Sys2Proof.Machine
end

section
/-! How an instruction ends (R140 to R145, R60), over all fourteen. -/
namespace Sys2Proof.Machine

/-- Settles O43: none of the bytes touches PROGRAM and one of them is not admitted (`exec_store_unwritable`). -/
theorem storeOfAnInvalidByteFaults : Obligations.StoreOfAnInvalidByteFaults := by
  unfold Obligations.StoreOfAnInvalidByteFaults
  exact fun i s hl ha hp hv => exec_store_unwritable hl ha hp hv

/-- The state with another PROGRAM. -/
def State.withProgram (s : State) (p : Program) : State :=
  { s with plat := { s.plat with program := p } }

/-- A result whose next state, if there is one, has another PROGRAM. -/
def withProgramIn (p : Program) : Result → Result
  | .next t => .next (t.withProgram p)
  | .fault f => .fault f
  | .refused r => .refused r

/-- A load is blind to PROGRAM (R60). -/
theorem exec_load_withProgram {i : Instr} (s : State) (p : Program) (hl : i.isLoad = true) :
    exec i (s.withProgram p) = withProgramIn p (exec i s) := by
  cases ha : i.availableAt s.xlen with
  | false => rw [exec_unavailable ha, exec_unavailable (s := s.withProgram p) ha]; rfl
  | true =>
    cases hv : s.admits (s.addrOf i) i.bytes .read with
    | false => rw [exec_load_invalid hl ha hv, exec_load_invalid (s := s.withProgram p) hl ha hv]; rfl
    | true =>
      cases hb : s.bytesAt (s.addrOf i) i.bytes with
      | none => rw [exec_load_noValue hl ha hv hb, exec_load_noValue (s := s.withProgram p) hl ha hv hb]; rfl
      | some v => rw [exec_load_value hl ha hv hb, exec_load_value (s := s.withProgram p) hl ha hv hb]; rfl

/-- Settles O44: the byte at distance `d < 4L` is in PROGRAM's range (`inProgram_of_eq`), which a store asks before validity;
a load does not ask it (`exec_load_withProgram`). -/
theorem storeIntoProgramIsRefused : Obligations.StoreIntoProgramIsRefused := by
  unfold Obligations.StoreIntoProgramIsRefused
  refine ⟨fun i s j d hl ha hwf hj hd haddr => ?_, fun i s p hl => ?_⟩
  · exact exec_store_program hl ha (touchesProgram_iff.2 ⟨j, hj, inProgram_of_eq hwf hd haddr⟩)
  · refine (exec_load_withProgram s p hl).trans ?_
    cases exec i s <;> rfl

/-- Settles O45: the access is admitted, and a byte of it has no value, so the whole has none. -/
theorem loadOfAByteWithoutAValueFaults : Obligations.LoadOfAByteWithoutAValueFaults := by
  unfold Obligations.LoadOfAByteWithoutAValueFaults
  exact fun i s hl ha hv hb => exec_load_noValue hl ha (admits_iff.2 hv) (bytesAt_eq_none.2 hb)

/-- Settles O46: the seven ways an instruction ends (`exec_cases`), four of them faults and one a refusal, each with its
condition on the bytes of the access. -/
theorem stopsOnlyAsTheRulesSay : Obligations.StopsOnlyAsTheRulesSay := by
  unfold Obligations.StopsOnlyAsTheRulesSay
  refine ⟨fun i s f h => ?_, fun i s r h => ?_⟩ <;>
    rcases exec_cases i s with ⟨ha, e⟩ | ⟨ha, hl, hv, e⟩ | ⟨ha, hl, hv, hb, e⟩ | ⟨-, -, -, v, -, e⟩ | ⟨ha, hl, hp, e⟩ |
      ⟨ha, hl, hp, hv, e⟩ | ⟨-, -, -, -, e⟩ <;>
    rw [e] at h <;> cases h
  · exact .inl ⟨ha, rfl⟩
  · exact .inr (.inl ⟨ha, hl, admits_eq_false_iff.1 hv, rfl⟩)
  · exact .inr (.inr (.inl ⟨ha, hl, admits_iff.1 hv, bytesAt_eq_none.1 hb, rfl⟩))
  · exact .inr (.inr (.inr ⟨ha, hl, touchesProgram_eq_false_iff.1 hp, admits_eq_false_iff.1 hv, rfl⟩))
  · exact ⟨ha, hl, touchesProgram_iff.1 hp, rfl⟩

/-- Settles O47: `exec_load_completes` and `exec_store_completes`, whose conditions do not speak of alignment. -/
theorem everyAccessCompletesWhateverItsAlignment : Obligations.EveryAccessCompletesWhateverItsAlignment := by
  unfold Obligations.EveryAccessCompletesWhateverItsAlignment
  exact ⟨fun i s b hl ha hv hb => exec_load_completes hl ha hv hb, fun i s hl ha hp hv => exec_store_completes hl ha hp hv⟩

end Sys2Proof.Machine
end

section
/-! The frame of the fourteen (R23, R42): the registers an instruction does not write, and those it does not read. -/
namespace Sys2Proof.Machine

theorem writes_of_isLoad {i : Instr} (h : i.isLoad = true) : i.writes = [i.data] := by
  rw [Instr.writes, if_pos h]

theorem writes_of_isStore {i : Instr} (h : i.isLoad = false) : i.writes = [] := by
  rw [Instr.writes, h]
  rfl

theorem reads_of_isStore {i : Instr} (h : i.isLoad = false) : i.reads = [i.base, i.data] := by
  rw [Instr.reads, h]
  rfl

/-- Every instruction reads its base register (R45). -/
theorem base_mem_reads (i : Instr) : i.base ∈ i.reads := by
  rw [Instr.reads]
  split <;> simp

/-- A register that an instruction does not write is as before (R23). -/
theorem exec_regNat_of_notMem_writes {i : Instr} {s t : State} {r : RegIdx} (h : exec i s = .next t) (hr : r ∉ i.writes) :
    t.regNat r = s.regNat r := by
  rcases exec_next_cases h with ⟨hl, ha, -, v, -, rfl⟩ | ⟨-, -, -, -, rfl⟩
  · rw [writes_of_isLoad hl, List.mem_singleton] at hr
    rw [regNat_afterLoad ha, if_neg hr]
    split
    · next h0 => rw [h0]; rfl
    · rfl
  · exact afterStore_regNat i s r

/-- Settles O48: the registers by `exec_regNat_of_notMem_writes`; a load leaves memory, and a store the bytes outside its
own. -/
theorem instructionWritesOnlyWhatItsRuleSays : Obligations.InstructionWritesOnlyWhatItsRuleSays := by
  unfold Obligations.InstructionWritesOnlyWhatItsRuleSays
  intro i s t h
  refine ⟨fun r hr => exec_regNat_of_notMem_writes h hr, fun hload a => ?_, fun hstore a ha => ?_⟩ <;>
    rcases exec_next_cases h with ⟨hl, -, -, v, -, rfl⟩ | ⟨hl, -, -, -, rfl⟩
  · rfl
  · rw [hl] at hload; cases hload
  · rw [hl] at hstore; cases hstore
  · exact afterStore_get?_of_notMem ha

/-! ### The base register (R45) -/

/-- The effective address as an integer: base plus signed offset, modulo the address space. -/
theorem toNat_effAddr (s : State) (b : RegIdx) (imm : Imm12) :
    ((s.effAddr b imm).toNat : Int) = ((s.regNat b : Int) + imm.toInt) % (s.space : Int) := by
  have hoffset : ((signedOffset s.xlen imm).toNat : Int) = imm.toInt % (s.space : Int) := by
    rw [signedOffset, BitVec.signExtend, BitVec.toNat_ofInt, State.space]
    exact Int.toNat_of_nonneg (Int.emod_nonneg _ (by positivity))
  rw [State.effAddr, BitVec.toNat_add, Int.natCast_emod, Int.natCast_add, hoffset]
  exact Int.add_emod_emod _ _ _

/-- Settles O21: the sum of the two as integers (`toNat_effAddr`); `x0` is 0; a store writes no register, and a load its
destination only. -/
theorem effectiveAddressIsTheModularSum : Obligations.EffectiveAddressIsTheModularSum := by
  unfold Obligations.EffectiveAddressIsTheModularSum
  refine ⟨fun s i => toNat_effAddr s i.base i.imm, fun s imm => ?_, fun i s t h hbase => ?_⟩
  · rw [toNat_effAddr, show s.regNat 0 = 0 from rfl, Nat.cast_zero, zero_add]
  · refine exec_regNat_of_notMem_writes h ?_
    cases hl : i.isLoad with
    | true =>
      rw [writes_of_isLoad hl, List.mem_singleton]
      rcases hbase with hstore | hne
      · rw [hl] at hstore; cases hstore
      · exact Ne.symm hne
    | false => simp [writes_of_isStore hl]

/-! ### A register that is not read -/

/-- A register other than the one written reads as before. -/
theorem readReg_writeReg_of_ne (s : State) {r q : RegIdx} (v : BitVec s.xlen.bits) (h : q ≠ r) :
    (s.writeReg r v).readReg q = s.readReg q := by
  apply BitVec.eq_of_toNat_eq
  have hread := regNat_writeReg s r q v
  rw [if_neg h] at hread
  refine hread.trans ?_
  split
  · next h0 => rw [h0]; rfl
  · rfl

theorem regNat_writeReg_of_ne (s : State) {r q : RegIdx} (v : BitVec s.xlen.bits) (h : q ≠ r) :
    (s.writeReg r v).regNat q = s.regNat q :=
  congrArg BitVec.toNat (readReg_writeReg_of_ne s v h)

section
variable {i : Instr} {r : RegIdx}

/-- The effective address does not depend on a register that is not read. -/
theorem addrOf_writeReg (s : State) (v : BitVec s.xlen.bits) (hr : r ∉ i.reads) :
    (s.writeReg r v).addrOf i = s.addrOf i :=
  congrArg (· + signedOffset s.xlen i.imm) (readReg_writeReg_of_ne s v fun h => hr (h ▸ base_mem_reads i))

/-- Neither do the bytes that a store writes. -/
theorem storeWrites_writeReg (s : State) (v : BitVec s.xlen.bits) (hl : i.isLoad = false) (hr : r ∉ i.reads) :
    storeWrites i (s.writeReg r v) = storeWrites i s := by
  have hdata : i.data ≠ r := by
    rintro rfl
    exact hr (by simp [reads_of_isStore hl])
  have hvalue : (s.writeReg r v).storeValue i.data i.bytes = s.storeValue i.data i.bytes :=
    congrArg (BitVec.setWidth (8 * i.bytes)) (readReg_writeReg_of_ne s v hdata)
  simp only [storeWrites, addrOf_writeReg s v hr, hvalue]
  rfl

/-- Changing a register that is not read leaves the way an instruction ends: the same fault, the same refusal, a load of the
same value, or a store. -/
theorem exec_writeReg_cases (s : State) (v : BitVec s.xlen.bits) (hr : r ∉ i.reads) :
    (∃ f, exec i s = .fault f ∧ exec i (s.writeReg r v) = .fault f) ∨
    (∃ q, exec i s = .refused q ∧ exec i (s.writeReg r v) = .refused q) ∨
    (i.isLoad = true ∧ i.availableAt s.xlen = true ∧ ∃ x, exec i s = .next (afterLoad i s x) ∧
      exec i (s.writeReg r v) = .next (afterLoad i (s.writeReg r v) x)) ∨
    (i.isLoad = false ∧ exec i s = .next (afterStore i s) ∧
      exec i (s.writeReg r v) = .next (afterStore i (s.writeReg r v))) := by
  -- the conditions of the seven ways speak of registers through the effective address only
  have haddr := addrOf_writeReg s v hr
  rcases exec_cases i s with ⟨ha, e⟩ | ⟨ha, hl, hv, e⟩ | ⟨ha, hl, hv, hb, e⟩ | ⟨ha, hl, hv, x, hb, e⟩ | ⟨ha, hl, hp, e⟩ |
    ⟨ha, hl, hp, hv, e⟩ | ⟨ha, hl, hp, hv, e⟩ <;> rw [← haddr] at *
  · exact .inl ⟨_, e, exec_unavailable (s := s.writeReg r v) ha⟩
  · exact .inl ⟨_, e, exec_load_invalid (s := s.writeReg r v) hl ha hv⟩
  · exact .inl ⟨_, e, exec_load_noValue (s := s.writeReg r v) hl ha hv hb⟩
  · exact .inr (.inr (.inl ⟨hl, ha, x, e, exec_load_value (s := s.writeReg r v) hl ha hv hb⟩))
  · exact .inr (.inl ⟨_, e, exec_store_program (s := s.writeReg r v) hl ha hp⟩)
  · exact .inl ⟨_, e, exec_store_invalid (s := s.writeReg r v) hl ha hp hv⟩
  · exact .inr (.inr (.inr ⟨hl, e, exec_store_valid (s := s.writeReg r v) hl ha hp hv⟩))

/-- Two states that differ in one register only differ in no other after a load, nor in that one if it is the
destination. -/
theorem regNat_afterLoad_writeReg {s : State} (v : BitVec s.xlen.bits) (ha : i.availableAt s.xlen = true)
    (x : BitVec (8 * i.bytes)) {q : RegIdx} (hq : q ≠ i.data → q ≠ r) :
    (afterLoad i (s.writeReg r v) x).regNat q = (afterLoad i s x).regNat q := by
  rw [regNat_afterLoad (s := s.writeReg r v) ha, regNat_afterLoad ha]
  by_cases hdata : q = i.data
  · rw [if_pos hdata, if_pos hdata]
    rfl
  · rw [if_neg hdata, if_neg hdata, regNat_writeReg_of_ne s v (hq hdata)]

end

/-- Settles O49: the instruction ends the same way (`exec_writeReg_cases`); the changed register is kept where it is not
written (`exec_regNat_of_notMem_writes`), and every other register is the same. -/
theorem registersNotReadDoNotMatter : Obligations.RegistersNotReadDoNotMatter := by
  unfold Obligations.RegistersNotReadDoNotMatter
  intro i s r v hr
  rcases exec_writeReg_cases s v hr with ⟨f, e, e'⟩ | ⟨q, e, e'⟩ | ⟨hl, ha, x, e, e'⟩ | ⟨hl, e, e'⟩ <;> rw [e, e']
  · exact ⟨fun _ h => h, nofun, nofun⟩
  · exact ⟨nofun, fun _ h => h, nofun⟩
  · refine ⟨nofun, nofun, ?_⟩
    rintro t ⟨⟩
    refine ⟨_, rfl, rfl, (afterLoad_pcNat i _ x).trans (afterLoad_pcNat i s x).symm, fun q => ?_⟩
    split
    · next h => exact exec_regNat_of_notMem_writes e' (h.1 ▸ h.2)
    · next h =>
      refine regNat_afterLoad_writeReg v ha x fun hdata hqr => h ⟨hqr, ?_⟩
      rwa [writes_of_isLoad hl, List.mem_singleton, ← hqr]
  · refine ⟨nofun, nofun, ?_⟩
    rintro t ⟨⟩
    refine ⟨_, rfl, congrArg s.mem.setAll (storeWrites_writeReg s v hl hr),
      (afterStore_pcNat i _).trans (afterStore_pcNat i s).symm, fun q => ?_⟩
    split
    · next h => exact exec_regNat_of_notMem_writes e' (h.1 ▸ h.2)
    · next h => exact regNat_writeReg_of_ne s v fun hqr => h ⟨hqr, by simp [writes_of_isStore hl]⟩

end Sys2Proof.Machine
end

section
/-! A load of bytes that a store has just written (R41, R62). -/
namespace Sys2Proof.Machine

/-- The little-endian number of the first `n` base-256 digits of a number is the number modulo `256^n` (R41). -/
theorem leSum_digits (v n : Nat) : leSum (fun k => BitVec.ofNat 8 (v / 256 ^ k)) n = v % 256 ^ n := by
  induction n with
  | zero => simp [leSum, Nat.mod_one]
  | succ n ih =>
    rw [Nat.mod_pow_succ, Nat.mul_comm (256 ^ n), leSum, ih]
    rfl

/-- A byte of an access that starts `j` bytes into another is a byte of the other. -/
theorem byteAddr_of_toNat_eq {w : Nat} {addr addr' : BitVec w} {j : Nat} (h : addr'.toNat = (addr.toNat + j) % 2 ^ w)
    (k : Nat) : byteAddr addr' k = byteAddr addr (j + k) := by
  rw [byteAddr, byteAddr, h, Nat.mod_add_mod, Nat.add_assoc]

/-- After a store, an access inside its bytes holds that many digits of the stored register, from the `j`-th on. -/
theorem holdsBytes_afterStore {st : Instr} {s : State} {addr : BitVec s.xlen.bits} {j n : Nat}
    (haddr : addr.toNat = ((s.addrOf st).toNat + j) % s.space) (hin : j + n ≤ st.bytes) :
    (afterStore st s).HoldsBytes addr n fun k => BitVec.ofNat 8 (s.regNat st.data / 256 ^ j / 256 ^ k) := by
  intro k hk
  have hdigit : s.regNat st.data / 256 ^ j / 256 ^ k = s.regNat st.data / 256 ^ (j + k) := by
    rw [Nat.div_div_eq_div_mul, ← pow_add]
  calc (afterStore st s).mem.get? (byteAddr (w := s.xlen.bits) addr k)
      = (afterStore st s).mem.get? (byteAddr (s.addrOf st) (j + k)) := by rw [byteAddr_of_toNat_eq haddr]
    _ = some (BitVec.ofNat 8 (s.regNat st.data / 256 ^ (j + k))) := afterStore_get?_of_lt (by omega)
    _ = some (BitVec.ofNat 8 (s.regNat st.data / 256 ^ j / 256 ^ k)) := by rw [hdigit]

/-- Settles O52: the load's bytes are digits of the stored register (`holdsBytes_afterStore`), and their number is the
register's, cut out. -/
theorem loadAfterStoreReturnsTheStoredBytes : Obligations.LoadAfterStoreReturnsTheStoredBytes := by
  unfold Obligations.LoadAfterStoreReturnsTheStoredBytes
  intro st ld s t j hst hld hexec hin ha haddr hreadable
  rcases exec_next_cases hexec with ⟨hl, -⟩ | ⟨-, -, -, -, rfl⟩
  · rw [hst] at hl; cases hl
  have hv : ∀ k < ld.bytes, (afterStore st s).memValid (byteAddr ((afterStore st s).addrOf ld) k) .read = true := by
    intro k hk
    have hread := hreadable k hk
    rw [Nat.add_assoc] at hread
    exact (congrArg (s.memValid · .read) (byteAddr_of_toNat_eq haddr k)).trans hread
  obtain ⟨u, hu, -, -, -, -, hregs⟩ :=
    exec_load_completes (s := afterStore st s) hld ha hv (holdsBytes_afterStore haddr hin)
  refine ⟨u, hu, ?_⟩
  rw [hregs, if_pos rfl, leSum_digits]
  rfl

end Sys2Proof.Machine
end

section
/-! The assembler (R77, R88, R89): a line in range is the instruction of its row with the line's numbers as fields. -/
namespace Sys2Proof.Machine

/-- The instruction of a line with its registers and its offset in range (R89). -/
theorem asmLine_instr {l : AsmLine} (hd : l.data ≤ 31) (hb : l.base ≤ 31) (hlo : -2048 ≤ l.offset)
    (hhi : l.offset ≤ 2047) : l.instr =
      .ok (l.op.instr (BitVec.ofNat 5 l.data) (BitVec.ofNat 5 l.base) (BitVec.ofInt 12 l.offset)) := by
  have hregs : (decide (31 < l.data) || decide (31 < l.base)) = false := by
    simp only [Bool.or_eq_false_iff, decide_eq_false_iff_not]
    omega
  have hoffset : (decide (l.offset < -2048) || decide (2047 < l.offset)) = false := by
    simp only [Bool.or_eq_false_iff, decide_eq_false_iff_not]
    omega
  simp only [AsmLine.instr, hregs, hoffset, Bool.false_eq_true, if_false]

/-- An offset out of range is the line's error when its registers are in range (R77). -/
theorem asmLine_instr_far {l : AsmLine} (hd : l.data ≤ 31) (hb : l.base ≤ 31)
    (hfar : l.offset < -2048 ∨ 2047 < l.offset) : l.instr = .error .offsetRange := by
  have hregs : (decide (31 < l.data) || decide (31 < l.base)) = false := by
    simp only [Bool.or_eq_false_iff, decide_eq_false_iff_not]
    omega
  have hoffset : (decide (l.offset < -2048) || decide (2047 < l.offset)) = true := by
    simpa only [Bool.or_eq_true, decide_eq_true_eq] using hfar
  simp only [AsmLine.instr, hregs, hoffset, Bool.false_eq_true, if_false, if_true]

/-- Settles O54: a line in range is its row's instruction, whose word decodes to it (`decode_encode`), and its numbers fit
their fields. -/
theorem assembledLineDecodesToItself : Obligations.AssembledLineDecodesToItself := by
  unfold Obligations.AssembledLineDecodesToItself
  refine ⟨fun e l he hd hb hlo hhi => ?_, fun e l hd hb hfar => ?_⟩
  · refine ⟨_, _, by rw [AsmLine.word, asmLine_instr hd hb hlo hhi], decode_encode he _, op_instr_op .., ?_, ?_, ?_⟩
    · rw [instr_data, BitVec.toNat_ofNat]
      omega
    · rw [instr_base, BitVec.toNat_ofNat]
      omega
    · rw [instr_imm, BitVec.toInt_ofInt_eq_self (by decide) (by simpa using hlo) (by omega)]
  · rw [AsmLine.word, asmLine_instr_far hd hb hfar]

/-- Settles O53: the model assembles the four lines. -/
theorem sourceLinesAssemble : Obligations.SourceLinesAssemble := by
  unfold Obligations.SourceLinesAssemble
  decide

end Sys2Proof.Machine
end
